-- ==== Sys2Proof/Word.lean ====
section
/-! DEFINITION. The bit-vector types of PLCX-CORE: bytes of a memory area, 24-bit pointer offsets, 32-bit
registers and 48-bit instruction words (spec/00_scope.md R5, R7, R8). Bit 0 is the least significant bit. -/

namespace Sys2Proof

/-- One byte of a memory area; also an area code and an opcode tag. -/
abbrev Byte := BitVec 8

/-- A byte.bit offset `byte*8 + bit` (R26). -/
abbrev Offset := BitVec 24

/-- The content of an accumulator or an address register, and a pointer (R21, R25, R26). -/
abbrev Word32 := BitVec 32

/-- One instruction word, `INSN_W` = 48 bits (R81). -/
abbrev InstrWord := BitVec 48

end Sys2Proof
end

