-- ==== Sys2Proof/Config.lean ====
section
/-! DEFINITION. What the build or the spec fixes for every core (spec/00_scope.md R5 to R7, spec/20_memory.md
R60, R69). The launch parameters of R6 (`SIZE`, `PROG`, `INIT_CPU`, `INIT_MEM`) are operands of the LOAD command;
`AREA_CODE`, the one OPEN constant of the build, is the field `areaCode` of State, so that every statement over
all states quantifies over it (log entry 3). The spec leaves no result of an instruction undefined, so there is
no free value here. -/

namespace Sys2Proof

/-- `SIZE[a] <= 2^21` (R6, R69; decision D31). -/
def Config.maxAreaSize : Nat := 2 ^ 21

/-- `LEN <= 2^32 - 1` (R6, R32; decision D20). -/
def Config.maxProgLen : Nat := 2 ^ 32 - 1

end Sys2Proof
end

