-- ==== Sys2Proof/Syntax.lean ====
section
/-! DEFINITION. The names of the machine's parts (areas, registers, flags, widths), the operand and the abstract
instruction of spec/30_encoding.md R80 and spec/40_operand_resolver.md R110, and `Instr`: one constructor per row
of spec/opcode_table.json. -/

namespace Sys2Proof

/-- The seven memory areas (R5 `AREAS`, R50). -/
inductive Area where
  | I | Q | M | T | C | L | DB
deriving DecidableEq, Repr

/-- All areas, in the order R50 lists them. -/
def Area.all : List Area := [.I, .Q, .M, .T, .C, .L, .DB]

/-- Seven like things, one for each memory area. -/
structure PerArea (α : Type) where
  I  : α
  Q  : α
  M  : α
  T  : α
  C  : α
  L  : α
  DB : α
deriving DecidableEq, Repr

/-- The accumulators' numbers, 1 to 4: there is no accumulator 0 (R21). -/
inductive AccuNum where
  | accu1 | accu2 | accu3 | accu4
deriving DecidableEq, Repr

/-- The address registers' numbers, 1 and 2 (R25). -/
inductive ArNum where
  | ar1 | ar2
deriving DecidableEq, Repr

/-- The nine status flags, in the order R28 names them, which is no bit order. -/
inductive Flag where
  | CC0 | CC1 | OV | OS | OR | STA | RLO | FC | BIE
deriving DecidableEq, Repr

/-- An operand's explicit bit width (R84, R110) and the width of a memory access (R52). -/
inductive Width where
  | w1 | w8 | w16 | w32
deriving DecidableEq, Repr

/-- The width in bits. -/
@[reducible] def Width.bits : Width → Nat
  | .w1  => 1
  | .w8  => 8
  | .w16 => 16
  | .w32 => 32

/-- The widths of the accumulator ports, `ACCU_ACCESS_W` (R5, R22, R23). -/
inductive AccuWidth where
  | w8 | w16 | w32
deriving DecidableEq, Repr

/-- The width in bits. -/
@[reducible] def AccuWidth.bits : AccuWidth → Nat
  | .w8  => 8
  | .w16 => 16
  | .w32 => 32

/-- The kind of an operand (R83, R110): immediate constant, immediate pointer, or memory relative to an
address register. `KIND = NONE` is the absence of an operand. -/
inductive OperandKind where
  | imm
  | ptr
  | arrel (n : ArNum)
deriving DecidableEq, Repr

/-- A decoded operand, the triple `Operand(kind, w, lit)` of R110. -/
structure Operand where
  kind  : OperandKind
  width : Width
  lit   : Word32
deriving DecidableEq, Repr

/-- The abstract instruction of R80: an opcode tag and the operand list. -/
structure TaggedInstr where
  tag      : Byte
  operands : List Operand
deriving DecidableEq, Repr

/-- The instructions: one constructor per row of spec/opcode_table.json (R88). -/
inductive Instr where
  /-- `+AR1`: increment `AR[1]` by `ACCU[1][23:0]` (R132). -/
  | plusAr1
  /-- `+AR1 P#…` (the table's `+AR1_P`): increment `AR[1]` by the pointer literal's offset (R131). -/
  | plusAr1P (lit : Word32)
deriving DecidableEq, Repr

/-- The abstract instruction behind a constructor (R131, R132, R136). -/
def Instr.tagged : Instr → TaggedInstr
  | .plusAr1      => ⟨0x01#8, []⟩
  | .plusAr1P lit => ⟨0x01#8, [⟨.ptr, .w32, lit⟩]⟩

/-- The pointer operand of the assembler (R91): `P#byte.bit`, `P#area byte.bit` or `P#0x` and eight digits. -/
inductive PtrExpr where
  | plain (byte : BitVec 21) (bit : BitVec 3)
  | inArea (a : Area) (byte : BitVec 21) (bit : BitVec 3)
  | raw (p : Word32)
deriving DecidableEq, Repr

/-- One instruction line of the assembler (R91), as a tree: the text itself is out of scope (R4 (a)). -/
inductive AsmLine where
  | plusAr1
  | plusAr1P (p : PtrExpr)
  | word (w : InstrWord)
deriving DecidableEq, Repr

end Sys2Proof
end

