-- ==== Sys2Proof/WellFormed.lean ====
section
/-! DEFINITION. Which operands, abstract instructions and instructions are well formed: the conditions of
spec/30_encoding.md R85, R86 (SV4, SV5) and R93 that are about the abstract instruction. SV1 to SV3 are about the
codes of a word and stand in Decode. -/

namespace Sys2Proof

/-- The payload's must-be-zero bits (R85): an immediate fits its own width (SV4), the offset of an
address-register-relative operand has 24 bits (SV5), and a pointer literal is any 32-bit value. -/
def Operand.wellFormed (op : Operand) : Bool :=
  match op.kind with
  | .imm     => op.lit >>> op.width.bits == 0#32
  | .ptr     => true
  | .arrel _ => op.lit.extractLsb' 24 8 == 0#8

/-- At most `MAX_OPERANDS` = 1 operand (R83, R93), and it is well formed. -/
def TaggedInstr.wellFormed (t : TaggedInstr) : Bool :=
  decide (t.operands.length ≤ 1) && t.operands.all Operand.wellFormed

/-- The abstract instruction behind `i` is well formed; so it is for every `Instr`, since the constructors'
arguments are exactly the fields of the encoding. -/
def Instr.wellFormed (i : Instr) : Bool := i.tagged.wellFormed

end Sys2Proof
end

