-- ==== Sys2Proof/Decode.lean ====
section
/-! DEFINITION. The instruction word `W48`: its fields, structural validity, the decode procedure of
spec/30_encoding.md R87 (total on the 2^48 words), and the encoder (R81, R85, R94). An instruction word is fetched
whole and has no byte order (R81), so the decoder's input is the word. -/

namespace Sys2Proof

/-- Why a word is no instruction, in the order of the checks of R87. -/
inductive DecodeReject where
  /-- Check 1: a condition of R86 fails (R166). -/
  | structuralDefect
  /-- Check 2: the opcode tag has no handler (R88, R164). -/
  | unimplementedInstruction
  /-- Check 3: the handler does not accept the operand kind (R119, R161). -/
  | operandTypeError
  /-- Check 4: the handler does not accept the operand's width (R119, R162). -/
  | widthError
deriving DecidableEq, Repr

/-- The handlers: one, `+AR1` (R82, R140). -/
inductive Handler where
  | incrementAr1
deriving DecidableEq, Repr

/-! ## The fields of a word (R81) -/

/-- `OPC`, bits [47:40]. -/
def wordOpc (w : InstrWord) : Byte := w.extractLsb' 40 8

/-- `KIND`, bits [39:36]. -/
def wordKind (w : InstrWord) : BitVec 4 := w.extractLsb' 36 4

/-- `WID`, bits [35:32]. -/
def wordWid (w : InstrWord) : BitVec 4 := w.extractLsb' 32 4

/-- `PAYLOAD`, bits [31:0]. -/
def wordPayload (w : InstrWord) : Word32 := w.extractLsb' 0 32

/-- The word with the four given fields (R81). -/
def packWord (opc : Byte) (kind wid : BitVec 4) (payload : Word32) : InstrWord :=
  opc ++ kind ++ wid ++ payload

/-- The `KIND` codes of R83: `some none` is `NONE`, and `none` a reserved code. -/
def decodeKind (k : BitVec 4) : Option (Option OperandKind) :=
  match k.toNat with
  | 0 => some none
  | 1 => some (some .imm)
  | 2 => some (some .ptr)
  | 3 => some (some (.arrel .ar1))
  | 4 => some (some (.arrel .ar2))
  | _ => none

/-- The `WID` codes of R84; `none` is a reserved code. -/
def decodeWidth (d : BitVec 4) : Option Width :=
  match d.toNat with
  | 0 => some .w1
  | 1 => some .w8
  | 2 => some .w16
  | 3 => some .w32
  | _ => none

/-! ## Structural validity (R86) -/

/-- SV3 to SV5 for a word whose kind and width codes are not reserved (R86). -/
def payloadValid (kind : Option OperandKind) (width : Width) (payload : Word32) : Bool :=
  match kind with
  | none            => width == .w1 && payload == 0#32
  | some .imm       => payload >>> width.bits == 0#32
  | some .ptr       => true
  | some (.arrel _) => payload.extractLsb' 24 8 == 0#8

/-- The opcode tag and the operand of a structurally valid word (SV1 to SV5 of R86), `none` for every other
word. It does not look at the value of `OPC`. The `NONE` kind has `WID` = 0, the code of one bit. -/
def parseWord (w : InstrWord) : Option (Byte × Option Operand) :=
  match decodeKind (wordKind w), decodeWidth (wordWid w) with
  | some kind, some width =>
    if payloadValid kind width (wordPayload w) then
      some (wordOpc w, kind.map fun k => ⟨k, width, wordPayload w⟩)
    else none
  | _, _ => none

/-- R86: the word is structurally valid. -/
def structurallyValid (w : InstrWord) : Bool := (parseWord w).isSome

/-! ## The constant tables of the dispatch unit (R136, R140) -/

/-- `DISPATCH`: opcode tag 0x01 is `+AR1`, every other tag has no handler (R82, R140). -/
def dispatch (opc : Byte) : Option Handler :=
  if opc = 0x01#8 then some .incrementAr1 else none

/-- `ACCEPT_KIND` (R136); `none` stands for `NONE`. -/
def acceptKind (h : Handler) (kind : Option OperandKind) : Bool :=
  match h, kind with
  | .incrementAr1, none            => true
  | .incrementAr1, some .ptr       => true
  | .incrementAr1, some .imm       => false
  | .incrementAr1, some (.arrel _) => false

/-- `ACCEPT_WIDTH` (R136), asked only of an accepted kind. -/
def acceptWidth (h : Handler) (kind : OperandKind) (width : Width) : Bool :=
  match h, kind with
  | .incrementAr1, .ptr     => width == .w32
  | .incrementAr1, .imm     => false
  | .incrementAr1, .arrel _ => false

/-! ## Decoding (R87) -/

/-- The instruction a handler runs on its operand list (R87 step 5). -/
def instrOf (h : Handler) (operand : Option Operand) : Instr :=
  match h, operand with
  | .incrementAr1, none    => .plusAr1
  | .incrementAr1, some op => .plusAr1P op.lit

/-- The decode procedure of R87: the first check that fails decides (the order is decision D10). -/
def decode (w : InstrWord) : Except DecodeReject Instr :=
  match parseWord w with
  | none => .error .structuralDefect
  | some (opc, operand) =>
    match dispatch opc with
    | none => .error .unimplementedInstruction
    | some h =>
      if acceptKind h (operand.map Operand.kind) then
        if operand.all fun op => acceptWidth h op.kind op.width then
          .ok (instrOf h operand)
        else .error .widthError
      else .error .operandTypeError

/-- What the decoder reads from a table row's word: bit 0 of `w` is bit 0 of the 48-bit word (R8, R81), and the
bits above `nbits` are 0. -/
def decodeTableWord (nbits w : Nat) : Option Instr :=
  if nbits ≤ 48 then (decode (BitVec.ofNat 48 (w % 2 ^ nbits))).toOption else none

/-! ## Encoding (R83 to R85, R94) -/

/-- The code of a kind (R83). -/
def encodeKind : Option OperandKind → BitVec 4
  | none               => 0#4
  | some .imm          => 1#4
  | some .ptr          => 2#4
  | some (.arrel .ar1) => 3#4
  | some (.arrel .ar2) => 4#4

/-- The code of a width (R84). -/
def encodeWidth : Width → BitVec 4
  | .w1  => 0#4
  | .w8  => 1#4
  | .w16 => 2#4
  | .w32 => 3#4

/-- The word of an opcode tag and an operand, the inverse of `parseWord` on well-formed operands (R83 to R85). -/
def encodeOperand (opc : Byte) : Option Operand → InstrWord
  | none    => packWord opc 0#4 0#4 0#32
  | some op => packWord opc (encodeKind (some op.kind)) (encodeWidth op.width) op.lit

/-- The word of an instruction (R88, R94): `0x010000000000`, and `0x0123` followed by the literal. -/
def encode : Instr → InstrWord
  | .plusAr1      => encodeOperand 0x01#8 none
  | .plusAr1P lit => encodeOperand 0x01#8 (some ⟨.ptr, .w32, lit⟩)

end Sys2Proof
end

