-- ==== Sys2Proof/Machine/State.lean ====
section
/-! DEFINITION. All the state the spec gives one core (spec/10_state.md R20), with the sequencer's command in
progress, the host's commands yet to come, and the last snapshot handed out, which are the model's own plain-data
view of the host port (spec/42_dispatch_and_execution.md R145, R149, R150). -/

namespace Sys2Proof.Machine

/-- The faults of R160. An instruction step answers one of them (R142); the sequencer then takes it: it writes
RESULT and stops (R145, R169). All are safe: the spec names each case. -/
inductive Fault where
  /-- Code 1 (R161): raised by decode check 3, by `toPointerValue` on a non-pointer and by `writeOperand` on an
  immediate. Safe. -/
  | operandTypeError
  /-- Code 2 (R162): raised by decode check 4. Safe. -/
  | widthError
  /-- Code 3 (R163): raised by `memRead`, `memWrite` out of bounds and by the resolver for an unmapped area
  code. No instruction reaches it (R68). Safe. -/
  | areaBoundaryError
  /-- Code 4 (R164): raised by decode check 2. Safe. -/
  | unimplementedInstruction
  /-- Code 5 (R165, decision D16): raised by the resolver. No instruction reaches it (R68). Safe. -/
  | unalignedBitOffset
deriving DecidableEq, Repr

/-- What has no meaning. -/
inductive Refusal where
  /-- An instruction the model gives no meaning; no arm of `exec` answers it. Safe. -/
  | notModelled (mnemonic : String)
  /-- An instruction step on a structurally invalid word (R86, R166): the outcome `Defect` of R142, which R10
  maps to a refusal. The sequencer takes it: RESULT reports DEFECT and the run stops (R145). Safe. -/
  | structuralDefect
  /-- A LOAD that breaks the host's duties of R154 (an image whose length is not `SIZE[a]`, `SIZE[a]` over 2^21,
  `LEN` over 2^32 - 1): the spec gives it no effect. Raised by the LOAD command. Safe. -/
  | loadDutyBroken
deriving DecidableEq, Repr

/-- The status word: nine named flags without a meaning (R28, R31). Their bit positions are used only on the
host port (`StatusWord.pack`, R29). -/
structure StatusWord where
  CC0 : Bool
  CC1 : Bool
  OV  : Bool
  OS  : Bool
  OR  : Bool
  STA : Bool
  RLO : Bool
  FC  : Bool
  BIE : Bool
deriving DecidableEq, Repr

/-- The source's `CpuState`: four accumulators, two address registers, the status word (R20). -/
structure CpuState where
  accu1 : Word32
  accu2 : Word32
  accu3 : Word32
  accu4 : Word32
  ar1   : Word32
  ar2   : Word32
  stw   : StatusWord
deriving DecidableEq, Repr

/-- The report register `RESULT` (R33), without the values the hardware never produces (R160, U11). -/
inductive Report where
  /-- `status = OK`, `code = 0`. -/
  | ok (index : Word32)
  /-- `status = FAULT`, `code` the fault's. -/
  | fault (f : Fault) (index : Word32)
  /-- `status = DEFECT`, `code = 0`. -/
  | defect (index : Word32)
deriving DecidableEq, Repr

/-- The register values of `CpuState` as the host port carries them: the status word in a 16-bit field (R29). -/
structure CpuImage where
  accu1 : Word32
  accu2 : Word32
  accu3 : Word32
  accu4 : Word32
  ar1   : Word32
  ar2   : Word32
  stw   : BitVec 16
deriving DecidableEq, Repr

/-- What SNAPSHOT returns and RESTORE writes: the registers, and each area's bytes in offset order (R151). -/
structure Snapshot where
  cpu   : CpuImage
  bytes : PerArea (List Byte)
deriving DecidableEq, Repr

/-- What LOAD supplies: `SIZE`, `INIT_MEM`, `INIT_CPU` and `PROG` (R6, R152). -/
structure LoadImage where
  size  : PerArea Nat
  bytes : PerArea (List Byte)
  cpu   : CpuImage
  prog  : List InstrWord
deriving DecidableEq, Repr

/-- The host's six commands (R150). -/
inductive Command where
  | reset
  | load (l : LoadImage)
  /-- STEP with the word the host supplies (R144). -/
  | step (w : InstrWord)
  /-- RUN (R145); `some k` says that the host's cancel request (R149) is up from sample number `k` of this run
  on, counting from 0, and `none` that the host does not cancel it. -/
  | run (cancelIn : Option Nat)
  | snapshot
  | restore (img : Snapshot)
deriving DecidableEq, Repr

/-- Whether a RUN is in progress (R178); `cancelIn` counts the samples before the cancel request is seen. -/
inductive Activity where
  | idle
  | running (cancelIn : Option Nat)
deriving DecidableEq, Repr

/-- One core and what its host will ask of it. -/
structure State where
  /-- The registers (R20). -/
  cpu : CpuState
  /-- The seven memory areas (R35, R50), each a list of (byte offset, byte) pairs in canonical form. -/
  mem : PerArea (List Host.Cell)
  /-- `SIZE[a]` (R34, R6). -/
  size : PerArea Nat
  /-- `AREA_CODE`, an OPEN constant of the build (R34, R60): no step changes it. -/
  areaCode : PerArea Byte
  /-- `PROG`; `LEN` is its length (R36). -/
  prog : List InstrWord
  /-- The sequencer's instruction index (R32). -/
  pc : Word32
  /-- `RESULT` (R33). -/
  result : Report
  /-- `LOADED` (R20, C10). -/
  loaded : Bool
  /-- The command in progress (R178). -/
  activity : Activity
  /-- The host's commands not yet issued, in the order the host issues them (R150). The model's own. -/
  pending : List Command
  /-- What the last accepted SNAPSHOT returned (R151). The model's own. -/
  snapshotOut : Option Snapshot
deriving DecidableEq, Repr

/-- The value the model names for the flags before LOAD, where R39 says "unspecified" (log entry 1). -/
def StatusWord.zero : StatusWord :=
  ⟨false, false, false, false, false, false, false, false, false⟩

/-- The value the model names for `CpuState` before LOAD, where R39 says "unspecified" (log entry 1). -/
def CpuState.zero : CpuState := ⟨0#32, 0#32, 0#32, 0#32, 0#32, 0#32, .zero⟩

/-- The area codes R60 proposes as the default of the OPEN map `AREA_CODE` (decision D13, log entry 3). -/
def defaultAreaCode : PerArea Byte :=
  { I := 0x81#8, Q := 0x82#8, M := 0x83#8, T := 0x1D#8, C := 0x1C#8, L := 0x86#8, DB := 0x84#8 }

/-- The machine right after hardware reset or power-on (R39, R190): nothing loaded, no area, an empty program,
`pc` = 0, RESULT = (OK, 0, 0), idle, and the host has asked for nothing yet. -/
def State.reset : State where
  cpu := .zero
  mem := ⟨[], [], [], [], [], [], []⟩
  size := ⟨0, 0, 0, 0, 0, 0, 0⟩
  areaCode := defaultAreaCode
  prog := []
  pc := 0#32
  result := .ok 0#32
  loaded := false
  activity := .idle
  pending := []
  snapshotOut := none

end Sys2Proof.Machine
end

