-- ==== Sys2Proof/Machine/Flags.lean ====
section
/-! DEFINITION. The flag register's ports (spec/10_state.md R30) and the packing of the status word on the host
port (R29, decision D12). No instruction computes, reads or writes a flag (R31). -/

namespace Sys2Proof.Machine

/-- The read port `STW.<F>` (R30). -/
def StatusWord.get (s : StatusWord) : Flag → Bool
  | .CC0 => s.CC0
  | .CC1 => s.CC1
  | .OV  => s.OV
  | .OS  => s.OS
  | .OR  => s.OR
  | .STA => s.STA
  | .RLO => s.RLO
  | .FC  => s.FC
  | .BIE => s.BIE

/-- The write port `STW.<F> <- b` (R30): it changes no other flag. -/
def StatusWord.set (s : StatusWord) (f : Flag) (b : Bool) : StatusWord :=
  match f with
  | .CC0 => { s with CC0 := b }
  | .CC1 => { s with CC1 := b }
  | .OV  => { s with OV := b }
  | .OS  => { s with OS := b }
  | .OR  => { s with OR := b }
  | .STA => { s with STA := b }
  | .RLO => { s with RLO := b }
  | .FC  => { s with FC := b }
  | .BIE => { s with BIE := b }

/-- The bit position of a flag inside the packed `STW` (R29). -/
def flagBit : Flag → Nat
  | .FC  => 0
  | .RLO => 1
  | .STA => 2
  | .OR  => 3
  | .OS  => 4
  | .OV  => 5
  | .CC0 => 6
  | .CC1 => 7
  | .BIE => 8

/-- The flags from bit 8 down to bit 0 as the 9-bit `STW` (R29). -/
def StatusWord.bits (s : StatusWord) : BitVec 9 :=
  BitVec.ofBool s.BIE ++ BitVec.ofBool s.CC1 ++ BitVec.ofBool s.CC0 ++ BitVec.ofBool s.OV ++
    BitVec.ofBool s.OS ++ BitVec.ofBool s.OR ++ BitVec.ofBool s.STA ++ BitVec.ofBool s.RLO ++
    BitVec.ofBool s.FC

/-- `STW` in a 16-bit field: bits [15:9] read as zero (R29). -/
def StatusWord.pack (s : StatusWord) : BitVec 16 := s.bits.setWidth 16

/-- The flags a 16-bit field writes: bits [15:9] are ignored (R29). -/
def StatusWord.unpack (v : BitVec 16) : StatusWord where
  CC0 := v.getLsbD (flagBit .CC0)
  CC1 := v.getLsbD (flagBit .CC1)
  OV  := v.getLsbD (flagBit .OV)
  OS  := v.getLsbD (flagBit .OS)
  OR  := v.getLsbD (flagBit .OR)
  STA := v.getLsbD (flagBit .STA)
  RLO := v.getLsbD (flagBit .RLO)
  FC  := v.getLsbD (flagBit .FC)
  BIE := v.getLsbD (flagBit .BIE)

end Sys2Proof.Machine
end

