-- ==== Sys2Proof/Machine/Ops.lean ====
section
/-! DEFINITION. The named operations over registers, memory and the sequencer: accumulator and address-register
ports (spec/10_state.md R22, R23, R25), the memory-area store (spec/20_memory.md R52 to R56, R60), fetching
(R32, R36), taking a fault or a defect (spec/60_exceptions.md R166, R169), and the packing of RESULT (R33). -/

namespace Sys2Proof

/-- The entry of an area. -/
def PerArea.get {α : Type} (p : PerArea α) : Area → α
  | .I  => p.I
  | .Q  => p.Q
  | .M  => p.M
  | .T  => p.T
  | .C  => p.C
  | .L  => p.L
  | .DB => p.DB

/-- One area's entry replaced. -/
def PerArea.set {α : Type} (p : PerArea α) (a : Area) (x : α) : PerArea α :=
  match a with
  | .I  => { p with I := x }
  | .Q  => { p with Q := x }
  | .M  => { p with M := x }
  | .T  => { p with T := x }
  | .C  => { p with C := x }
  | .L  => { p with L := x }
  | .DB => { p with DB := x }

/-- The entries a function gives. -/
def PerArea.ofFn {α : Type} (f : Area → α) : PerArea α :=
  ⟨f .I, f .Q, f .M, f .T, f .C, f .L, f .DB⟩

end Sys2Proof

namespace Sys2Proof.Machine

/-- The next state an outcome holds, if it holds one. -/
def nextOf {σ φ ρ : Type} : Host.Outcome σ φ ρ → Option σ
  | .next s    => some s
  | .fault _   => none
  | .refused _ => none

/-! ## Accumulators (R21 to R23) -/

/-- The whole accumulator `ACCU[n]` (R21). -/
def CpuState.accu (c : CpuState) : AccuNum → Word32
  | .accu1 => c.accu1
  | .accu2 => c.accu2
  | .accu3 => c.accu3
  | .accu4 => c.accu4

/-- `ACCU[n]` replaced whole. -/
def CpuState.setAccuWhole (c : CpuState) (n : AccuNum) (v : Word32) : CpuState :=
  match n with
  | .accu1 => { c with accu1 := v }
  | .accu2 => { c with accu2 := v }
  | .accu3 => { c with accu3 := v }
  | .accu4 => { c with accu4 := v }

/-- `get_accu(n, w)`: the low-order `w` bits, unsigned (R22, decision D27). -/
def State.getAccu (s : State) (n : AccuNum) (w : AccuWidth) : BitVec w.bits :=
  (s.cpu.accu n).extractLsb' 0 w.bits

/-- The 32 bits of an accumulator after a `w`-bit write: the bits above `w` stay (R23). -/
def mergeLow (old : Word32) : (w : AccuWidth) → BitVec w.bits → Word32
  | .w8,  v => old.extractLsb' 8 24 ++ v
  | .w16, v => old.extractLsb' 16 16 ++ v
  | .w32, v => v

/-- `set_accu(n, w, v)` (R23). -/
def State.setAccu (s : State) (n : AccuNum) (w : AccuWidth) (v : BitVec w.bits) : State :=
  { s with cpu := s.cpu.setAccuWhole n (mergeLow (s.cpu.accu n) w v) }

/-! ## Address registers (R25) -/

/-- `AR[n]`. -/
def CpuState.ar (c : CpuState) : ArNum → Word32
  | .ar1 => c.ar1
  | .ar2 => c.ar2

/-- `get_ar(n)`: all 32 bits (R25). -/
def State.getAr (s : State) (n : ArNum) : Word32 := s.cpu.ar n

/-- `AR[n]` replaced. -/
def CpuState.setAr (c : CpuState) (n : ArNum) (v : Word32) : CpuState :=
  match n with
  | .ar1 => { c with ar1 := v }
  | .ar2 => { c with ar2 := v }

/-- `set_ar(n, v)`: all 32 bits (R25). -/
def State.setAr (s : State) (n : ArNum) (v : Word32) : State := { s with cpu := s.cpu.setAr n v }

/-! ## Status flags (R30) -/

/-- `STW.<F>` (R30). -/
def State.getFlag (s : State) (f : Flag) : Bool := s.cpu.stw.get f

/-- `STW.<F> <- b` (R30). -/
def State.setFlag (s : State) (f : Flag) (b : Bool) : State :=
  { s with cpu := { s.cpu with stw := s.cpu.stw.set f b } }

/-! ## The bytes of one area

An area's content is a list of (byte offset, byte) pairs, offsets strictly rising, no pair with the byte an
unlisted offset reads as. -/

/-- What an offset the list does not hold reads as. Every byte of every area has been written by LOAD (R39), so
this is a convention of the data, not an initial value of memory (log entry 2). -/
def unlistedByte : Byte := 0#8

/-- The byte at an offset. -/
def readByte (m : List Host.Cell) (o : Nat) : Byte :=
  match m with
  | [] => unlistedByte
  | (k, b) :: rest => if k = o then b else readByte rest o

/-- The list without the offset `o`. -/
def eraseByte (m : List Host.Cell) (o : Nat) : List Host.Cell :=
  m.filter fun c => c.1 != o

/-- A pair put in its place in a rising list. -/
def insertCell (m : List Host.Cell) (o : Nat) (v : Byte) : List Host.Cell :=
  match m with
  | [] => [(o, v)]
  | (k, b) :: rest => if o < k then (o, v) :: (k, b) :: rest else (k, b) :: insertCell rest o v

/-- The byte `v` written at the offset `o`, keeping the canonical form. -/
def writeByte (m : List Host.Cell) (o : Nat) (v : Byte) : List Host.Cell :=
  if v = unlistedByte then eraseByte m o else insertCell (eraseByte m o) o v

/-- The canonical form from the offset `lo` on: offsets rise, start at `lo` or above, and no pair is redundant. -/
def cellsWfFrom (lo : Nat) : List Host.Cell → Bool
  | [] => true
  | (k, b) :: rest => decide (lo ≤ k) && b != unlistedByte && cellsWfFrom (k + 1) rest

/-- The canonical form of one area's content. -/
def cellsWf (m : List Host.Cell) : Bool := cellsWfFrom 0 m

/-- Every listed offset is below the area's size. -/
def cellsBelow (size : Nat) (m : List Host.Cell) : Bool := m.all fun c => decide (c.1 < size)

/-- The content made of the bytes `bs` at the offsets `o`, `o + 1`, … -/
def cellsOfBytes (o : Nat) : List Byte → List Host.Cell
  | [] => []
  | b :: bs => if b = unlistedByte then cellsOfBytes (o + 1) bs else (o, b) :: cellsOfBytes (o + 1) bs

/-- The `size` bytes of an area in offset order. -/
def bytesOfCells (size : Nat) (m : List Host.Cell) : List Byte :=
  (List.range size).map (readByte m)

/-! ## The memory-area store (R52 to R56) -/

/-- The canonical form of the whole memory: of each of the seven areas. -/
def Memory.wf (m : PerArea (List Host.Cell)) : Bool := Area.all.all fun a => cellsWf (m.get a)

/-- How many bytes an access touches, `max(1, n/8)` (R54). -/
def accessBytes : Width → Nat
  | .w1  => 1
  | .w8  => 1
  | .w16 => 2
  | .w32 => 4

/-- The bounds check (R54): every byte of the access is inside the area (decision D19). -/
def inBounds (s : State) (a : Area) (o : Nat) (w : Width) : Bool :=
  decide (o + accessBytes w ≤ s.size.get a)

/-- The value of an access in bounds (R52), the byte at the lowest offset most significant (R56, D15), bit 0 of a
byte its least significant (R55, D34). -/
def readBits (m : List Host.Cell) (o : Nat) (b : BitVec 3) : (w : Width) → BitVec w.bits
  | .w1  => (readByte m o >>> b.toNat).extractLsb' 0 1
  | .w8  => readByte m o
  | .w16 => readByte m o ++ readByte m (o + 1)
  | .w32 => readByte m o ++ readByte m (o + 1) ++ readByte m (o + 2) ++ readByte m (o + 3)

/-- A byte with its bit `b` replaced (R53). -/
def putBit (old : Byte) (b : BitVec 3) (v : BitVec 1) : Byte :=
  (old &&& ~~~(1#8 <<< b.toNat)) ||| (v.setWidth 8 <<< b.toNat)

/-- The area's content after a write in bounds (R53). -/
def writeBits (m : List Host.Cell) (o : Nat) (b : BitVec 3) :
    (w : Width) → BitVec w.bits → List Host.Cell
  | .w1,  v => writeByte m o (putBit (readByte m o) b v)
  | .w8,  v => writeByte m o v
  | .w16, v => writeByte (writeByte m o (v.extractLsb' 8 8)) (o + 1) (v.extractLsb' 0 8)
  | .w32, v =>
    writeByte
      (writeByte
        (writeByte (writeByte m o (v.extractLsb' 24 8)) (o + 1) (v.extractLsb' 16 8))
        (o + 2) (v.extractLsb' 8 8))
      (o + 3) (v.extractLsb' 0 8)

/-- `MemRead((a, o, b), n)` (R52); `b` matters only for one bit. -/
def State.memRead (s : State) (a : Area) (o : Nat) (b : BitVec 3) (w : Width) :
    Except Fault (BitVec w.bits) :=
  if inBounds s a o w then .ok (readBits (s.mem.get a) o b w) else .error .areaBoundaryError

/-- `MemWrite((a, o, b), n, v)` (R53): all or nothing (R54, R58). -/
def State.memWrite (s : State) (a : Area) (o : Nat) (b : BitVec 3) (w : Width) (v : BitVec w.bits) :
    Except Fault State :=
  if inBounds s a o w then
    .ok { s with mem := s.mem.set a (writeBits (s.mem.get a) o b w v) }
  else .error .areaBoundaryError

/-- `area_of(c)`: the area with the code `c`, if any (R60). -/
def State.areaOf (s : State) (c : Byte) : Option Area :=
  Area.all.find? fun a => s.areaCode.get a == c

/-! ## The sequencer: fetching, the report register, stopping -/

/-- The word `PROG[pc]`; `none` at and beyond the end of the program (R32, R36, R81). -/
def State.fetch (s : State) : Option InstrWord := s.prog[s.pc.toNat]?

/-- The fault codes (R160, decision D11). -/
def Fault.code : Fault → BitVec 4
  | .operandTypeError         => 1#4
  | .widthError               => 2#4
  | .areaBoundaryError        => 3#4
  | .unimplementedInstruction => 4#4
  | .unalignedBitOffset       => 5#4

/-- `RESULT` as its 38 bits: `status` [37:36], `code` [35:32], `index` [31:0] (R33). -/
def Report.pack : Report → BitVec 38
  | .ok i      => 0#2 ++ 0#4 ++ i
  | .fault f i => 1#2 ++ f.code ++ i
  | .defect i  => 2#2 ++ 0#4 ++ i

/-- The end of a STEP or RUN: the sequencer writes RESULT and is idle (R33, R144, R145). -/
def State.finish (s : State) (r : Report) : State := { s with result := r, activity := .idle }

/-- Taking a fault (R169): RESULT gets the fault's code and the index, the sequencer stops, and nothing else
changes: no register is saved, no vector is taken, control goes back to the host. There is no return from a fault
(R171): the host may start a new RUN, which begins at index 0. -/
def State.takeFault (s : State) (f : Fault) (index : Word32) : State := s.finish (.fault f index)

/-- Taking a structural defect (R166): as a fault, but RESULT reports DEFECT. -/
def State.takeDefect (s : State) (index : Word32) : State := s.finish (.defect index)

/-- After an instruction of a RUN with the outcome Ok (R145): the next index, and one sample of the cancel
request fewer to come. -/
def State.advance (s : State) (cancelIn : Option Nat) : State :=
  { s with pc := s.pc + 1#32, activity := .running (cancelIn.map fun k => k - 1) }

/-- The core in the middle of a RUN of the one-word program `w`, about to fetch it (log entry 5). -/
def State.placeWord (s : State) (w : InstrWord) : State :=
  { s with prog := [w], pc := 0#32, loaded := true, activity := .running none }

end Sys2Proof.Machine
end

