-- ==== Sys2Proof/Machine/Assembler.lean ====
section
/-! DEFINITION. The assembler of spec/30_encoding.md: its encoding function (R94), and the syntax of a line (R91)
as a parser over characters. It is no part of the core: the source's own lexer and parser are out of scope
(R4 (a)). What R91 leaves open of a line's text (blanks, leading zeros, the case of hexadecimal digits) is the
model's choice: log entry 7. -/

namespace Sys2Proof.Machine

/-! ## Encoding (R94) -/

/-- The 32-bit literal of a pointer operand: `byte*8 + bit` below an area byte (R94). -/
def pointerLiteral (codes : PerArea Byte) : PtrExpr → Word32
  | .plain byte bit    => 0#8 ++ byte ++ bit
  | .inArea a byte bit => codes.get a ++ byte ++ bit
  | .raw p             => p

/-- The word of one instruction line (R94). -/
def assemble (codes : PerArea Byte) : AsmLine → InstrWord
  | .plusAr1    => encode .plusAr1
  | .plusAr1P p => encode (.plusAr1P (pointerLiteral codes p))
  | .word w     => w

/-- Instruction line `i`, counting from 0, becomes `PROG[i]` (R91). -/
def assembleProgram (codes : PerArea Byte) (lines : List AsmLine) : List InstrWord :=
  lines.map (assemble codes)

/-! ## Syntax (R91) -/

/-- The place of a character among the `n` that follow one another from `first` on. -/
def placeFrom (first : Char) (n : Nat) (c : Char) : Option Nat :=
  (List.range n).find? fun k => first.toNat + k == c.toNat

/-- The value of a digit of `hex8` and `hex12`. R91 does not say how the digits above nine are written: capital and
small letters both count (DESIGN CHOICE, log entry 7). -/
def digitValue (c : Char) : Option Nat :=
  placeFrom '0' 10 c <|> ((placeFrom 'A' 6 c <|> placeFrom 'a' 6 c).map fun k => 10 + k)

/-- The number the digits write in the base, most significant first, added below `acc`. -/
def digitsValue (base acc : Nat) : List Char → Option Nat
  | [] => some acc
  | c :: cs =>
    match digitValue c with
    | some d => if d < base then digitsValue base (acc * base + d) cs else none
    | none   => none

/-- A decimal number of at least one digit, at most `max`. R91 gives the range of the value and not the number of
digits: leading zeros may stand before it, as in `P#0007.01` (DESIGN CHOICE, log entry 7). -/
def decimal (max : Nat) (cs : List Char) : Option Nat :=
  if cs.isEmpty then none
  else match digitsValue 10 0 cs with
    | some n => if n ≤ max then some n else none
    | none   => none

/-- Exactly `n` hexadecimal digits (`hex8`, `hex12`). -/
def hex (n : Nat) (cs : List Char) : Option Nat :=
  if cs.length = n then digitsValue 16 0 cs else none

/-- What follows the token `tok`. -/
def afterToken (tok cs : List Char) : Option (List Char) :=
  if tok.isPrefixOf cs then some (cs.drop tok.length) else none

/-- Without the blanks at the front; a blank is the space character alone (DESIGN CHOICE, log entry 7). -/
def skipBlanks (cs : List Char) : List Char := cs.dropWhile fun c => c == ' '

/-- Without the blanks at the end. -/
def trimEnd (cs : List Char) : List Char := (skipBlanks cs.reverse).reverse

/-- `byte "." bit`, with no blank in it (DESIGN CHOICE, log entry 7). -/
def parseByteBit (cs : List Char) : Option (BitVec 21 × BitVec 3) :=
  match decimal (2 ^ 21 - 1) (cs.takeWhile fun c => c != '.'), cs.dropWhile fun c => c != '.' with
  | some byte, '.' :: rest => (decimal 7 rest).map fun bit => (BitVec.ofNat 21 byte, BitVec.ofNat 3 bit)
  | _, _ => none

/-- `area`. -/
def parseArea (cs : List Char) : Option Area :=
  match cs with
  | ['I']      => some .I
  | ['Q']      => some .Q
  | ['M']      => some .M
  | ['T']      => some .T
  | ['C']      => some .C
  | ['L']      => some .L
  | ['D', 'B'] => some .DB
  | _          => none

/-- `ptr`. The only blanks it admits are those between `area` and `byte`, one or more where R91 writes one; with
another blank in it, as in `P# 1.0`, `P#1 . 0` or after `0x`, it is none (DESIGN CHOICE, log entry 7). -/
def parsePtr (cs : List Char) : Option PtrExpr :=
  match afterToken ['P', '#'] cs with
  | none => none
  | some rest =>
    match afterToken ['0', 'x'] rest with
    | some digits => (hex 8 digits).map fun p => .raw (BitVec.ofNat 32 p)
    | none =>
      match parseArea (rest.takeWhile fun c => c != ' ') with
      | some a =>
        (parseByteBit (skipBlanks (rest.dropWhile fun c => c != ' '))).map fun x => .inArea a x.1 x.2
      | none => (parseByteBit rest).map fun x => .plain x.1 x.2

/-- `insn`, without blanks around it. Any number of blanks, or none, may stand after `+AR1` and `.word`, and none after
the `0x` (DESIGN CHOICE, log entry 7). -/
def parseInsn (cs : List Char) : Option AsmLine :=
  match afterToken ['+', 'A', 'R', '1'] cs with
  | some [] => some .plusAr1
  | some rest => (parsePtr (skipBlanks rest)).map .plusAr1P
  | none =>
    match afterToken ['.', 'w', 'o', 'r', 'd'] cs with
    | some rest =>
      match afterToken ['0', 'x'] (skipBlanks rest) with
      | some digits => (hex 12 digits).map fun w => .word (BitVec.ofNat 48 w)
      | none => none
    | none => none

/-- The line without its comment. -/
def stripComment : List Char → List Char
  | [] => []
  | '/' :: '/' :: _ => []
  | c :: cs => c :: stripComment cs

/-- `line`: `some none` for a line without an instruction, `none` for a line that the syntax does not allow. -/
def parseLine (cs : List Char) : Option (Option AsmLine) :=
  match trimEnd (skipBlanks (stripComment cs)) with
  | [] => some none
  | c :: rest => (parseInsn (c :: rest)).map some

/-- The program of a text's lines (R91): `none` if one of them is not allowed. -/
def assembleText (codes : PerArea Byte) : List (List Char) → Option (List InstrWord)
  | [] => some []
  | l :: ls =>
    match parseLine l, assembleText codes ls with
    | some none, some ws     => some ws
    | some (some i), some ws => some (assemble codes i :: ws)
    | _, _                   => none

end Sys2Proof.Machine
end

