-- ==== Sys2Proof/Machine/Operands.lean ====
section
/-! DEFINITION. The pointer format and its adder (spec/10_state.md R26, R27, spec/41_pointer_arithmetic.md R130),
and the pointer decoder and operand resolver: every operand form the hardware has (spec/40_operand_resolver.md). -/

namespace Sys2Proof.Machine

/-! ## Pointers (R26) -/

/-- `area(p)`, bits [31:24]. -/
def ptrArea (p : Word32) : Byte := p.extractLsb' 24 8

/-- `offset(p)`, bits [23:0]. -/
def ptrOffset (p : Word32) : Offset := p.extractLsb' 0 24

/-- `byte(p)` of an offset, bits [23:3]. -/
def offsetByte (o : Offset) : BitVec 21 := o.extractLsb' 3 21

/-- `bit(p)` of an offset, bits [2:0]. -/
def offsetBit (o : Offset) : BitVec 3 := o.extractLsb' 0 3

/-- `PtrAdd(a, p)` (R130): the offsets are added modulo 2^24 and the area byte is copied through (R27). -/
def ptrAdd (a : Word32) (p : Offset) : Word32 := ptrArea a ++ (ptrOffset a + p)

/-! ## The resolver -/

/-- A place in the memory-area store (R113). -/
structure Location where
  area  : Area
  off   : Nat
  bit   : BitVec 3
  width : Width
deriving DecidableEq, Repr

/-- What `resolve` gives: a `w`-bit number or a place (R113). -/
inductive OperandValue where
  | value (w : Width) (v : BitVec w.bits)
  | location (l : Location)
deriving DecidableEq, Repr

/-- `to_pointer_value` (R112): the literal without its area byte; `OperandTypeError` on another kind. -/
def toPointerValue (op : Operand) : Except Fault Word32 :=
  match op.kind with
  | .ptr     => .ok ((ptrOffset op.lit).setWidth 32)
  | .imm     => .error .operandTypeError
  | .arrel _ => .error .operandTypeError

/-- The effective address of an address-register-relative operand (R116, decision D17). -/
def effectiveAddress (ar : Word32) (lit : Word32) : Offset := ptrOffset ar + ptrOffset lit

/-- An access wider than one bit must name a whole byte (R117, decision D16). -/
def bitAligned (w : Width) (b : BitVec 3) : Bool :=
  match w with
  | .w1  => true
  | .w8  => b == 0#3
  | .w16 => b == 0#3
  | .w32 => b == 0#3

/-- The address-register-relative arm of `resolve` (R116), with the checks of R117 in their order. -/
def State.resolveArRel (s : State) (n : ArNum) (w : Width) (lit : Word32) : Except Fault OperandValue :=
  let ea := effectiveAddress (s.getAr n) lit
  if bitAligned w (offsetBit ea) then
    match s.areaOf (ptrArea (s.getAr n)) with
    | some a => .ok (.location ⟨a, (offsetByte ea).toNat, offsetBit ea, w⟩)
    | none   => .error .areaBoundaryError
  else .error .unalignedBitOffset

/-- `resolve(operand, cpu, memory)` (R113 to R116). -/
def State.resolve (s : State) (op : Operand) : Except Fault OperandValue :=
  match op.kind with
  | .imm     => .ok (.value op.width (op.lit.extractLsb' 0 op.width.bits))
  | .ptr     => (toPointerValue op).map fun v => .value .w32 v
  | .arrel n => s.resolveArRel n op.width op.lit

/-- The width of a resolved operand. -/
def OperandValue.width : OperandValue → Width
  | .value w _  => w
  | .location l => l.width

/-- `ReadOperand` (R118): neither sign- nor zero-extended. -/
def State.readOperand (s : State) : (v : OperandValue) → Except Fault (BitVec v.width.bits)
  | .value _ v  => .ok v
  | .location l => s.memRead l.area l.off l.bit l.width

/-- `WriteOperand` (R118): an immediate is not a destination. -/
def State.writeOperand (s : State) : (d : OperandValue) → BitVec d.width.bits → Except Fault State
  | .value _ _,  _ => .error .operandTypeError
  | .location l, v => s.memWrite l.area l.off l.bit l.width v

end Sys2Proof.Machine
end

