-- ==== Sys2Proof/Machine/PointerArithmetic.lean ====
section
/-! DEFINITION. The pointer-arithmetic instructions: the handler of `+AR1` in its two forms
(spec/41_pointer_arithmetic.md R131, R132). Neither reads or writes `pc`, a flag or memory (R31, R68, R146). -/

namespace Sys2Proof.Machine

/-- `AR[1]` incremented by a 24-bit offset, in the canonical shape of R133. -/
def State.incrementAr1 (s : State) (inc : Offset) : State :=
  s.setAr .ar1 (ptrAdd (s.getAr .ar1) inc)

/-- `+AR1` (R132): the increment is `ACCU[1][23:0]` (C1: the 24-bit reading). -/
def execPlusAr1 (s : State) : Host.Outcome State Fault Refusal :=
  .next (s.incrementAr1 (ptrOffset (s.getAccu .accu1 .w32)))

/-- `+AR1 P#…` (R131): the increment is the literal without its area byte. -/
def execPlusAr1P (lit : Word32) (s : State) : Host.Outcome State Fault Refusal :=
  match toPointerValue ⟨.ptr, .w32, lit⟩ with
  | .ok inc  => .next (s.incrementAr1 (ptrOffset inc))
  | .error f => .fault f

end Sys2Proof.Machine
end

