-- ==== Sys2Proof/Machine/Dispatch.lean ====
section
/-! DEFINITION. One arm per instruction: the handler's `run` of spec/42_dispatch_and_execution.md R141, R142. -/

namespace Sys2Proof.Machine

def exec (i : Instr) (s : State) : Host.Outcome State Fault Refusal :=
  match i with
  | .plusAr1 => Sys2Proof.Machine.execPlusAr1 s
  | .plusAr1P lit => Sys2Proof.Machine.execPlusAr1P lit s

end Sys2Proof.Machine
end

