-- ==== Sys2Proof/Machine/Sequencer.lean ====
section
/-! DEFINITION. The instruction step, the sequencer's RUN loop and the STEP command
(spec/42_dispatch_and_execution.md R142, R144, R145, R147 to R149). -/

namespace Sys2Proof.Machine

/-- The outcome of a word the decoder rejects (R87, R142): a fault, or the refusal that stands for `Defect` (R10). -/
def rejectOutcome : DecodeReject → Host.Outcome State Fault Refusal
  | .structuralDefect         => .refused .structuralDefect
  | .unimplementedInstruction => .fault .unimplementedInstruction
  | .operandTypeError         => .fault .operandTypeError
  | .widthError               => .fault .widthError

/-- `Step(S, w)` of R142, with the outcomes of R10: Ok is `next`, Fault is `fault`, Defect is `refused`. It reads
and writes neither `pc` nor RESULT. -/
def stepWord (w : InstrWord) (s : State) : Host.Outcome State Fault Refusal :=
  match decode w with
  | .ok i    => exec i s
  | .error r => rejectOutcome r

/-- What the sequencer does with the outcome of an instruction step that began in `s` (R144, R145, R148, R169):
a fault or a defect is taken in the old state `s`, so the failing instruction has changed nothing (R143). -/
def State.settle (s : State) (index : Word32) (onOk : State → State) :
    Host.Outcome State Fault Refusal → Host.Outcome State Fault Refusal
  | .next s'                   => .next (onOk s')
  | .fault f                   => .next (s.takeFault f index)
  | .refused .structuralDefect => .next (s.takeDefect index)
  | .refused r                 => .refused r

/-- Whether the cancel request is up at this sample (R149). -/
def cancelSeen (cancelIn : Option Nat) : Bool := cancelIn == some 0

/-- One turn of the RUN loop (R145): the end of the program is looked at first, then the cancel request, then
`PROG[pc]` is executed. -/
def State.runTurn (s : State) (cancelIn : Option Nat) : Host.Outcome State Fault Refusal :=
  match s.fetch with
  | none => .next (s.finish (.ok s.pc))
  | some w =>
    if cancelSeen cancelIn then .next (s.finish (.ok s.pc))
    else s.settle s.pc (fun t => t.advance cancelIn) (stepWord w s)

/-- The RUN command (R145): it sets `pc` to 0 and starts the loop on the state the core holds. -/
def State.startRun (s : State) (cancelIn : Option Nat) : State :=
  { s with pc := 0#32, activity := .running cancelIn }

/-- The STEP command on the word the host supplies (R144): it reads neither PROG nor `pc`. -/
def State.stepCommand (s : State) (w : InstrWord) : Host.Outcome State Fault Refusal :=
  s.settle 0#32 (fun t => t.finish (.ok 0#32)) (stepWord w s)

end Sys2Proof.Machine
end

