-- ==== Sys2Proof/Machine/HostPort.lean ====
section
/-! DEFINITION. The host commands RESET, LOAD, SNAPSHOT and RESTORE, the gate of LOADED, and the step of the whole
core (spec/42_dispatch_and_execution.md R150 to R152, R154, spec/70_reset_and_hazards.md R190). -/

namespace Sys2Proof.Machine

/-! ## The register image of the port (R29, R151) -/

/-- `CpuState` as the port carries it. -/
def CpuState.toImage (c : CpuState) : CpuImage :=
  ⟨c.accu1, c.accu2, c.accu3, c.accu4, c.ar1, c.ar2, c.stw.pack⟩

/-- `CpuState` as the port's image writes it. -/
def CpuImage.toCpu (i : CpuImage) : CpuState :=
  ⟨i.accu1, i.accu2, i.accu3, i.accu4, i.ar1, i.ar2, StatusWord.unpack i.stw⟩

/-! ## The commands -/

/-- RESET (R190): every field as after hardware reset, but the constant of the build and what the host has still
to ask. -/
def State.resetCommand (s : State) : State :=
  { State.reset with areaCode := s.areaCode, pending := s.pending }

/-- The host's duties at LOAD (R154): each image has the length `SIZE[a]`, `SIZE[a] <= 2^21`, `LEN <= 2^32 - 1`. -/
def LoadImage.legal (l : LoadImage) : Bool :=
  Area.all.all (fun a => (l.bytes.get a).length == l.size.get a && decide (l.size.get a ≤ Config.maxAreaSize))
    && decide (l.prog.length ≤ Config.maxProgLen)

/-- The state after LOAD (R39, R152): the program is not validated and RESULT is unchanged. -/
def State.loadImage (s : State) (l : LoadImage) : State :=
  { s with
    cpu := l.cpu.toCpu
    mem := PerArea.ofFn fun a => cellsOfBytes 0 (l.bytes.get a)
    size := l.size
    prog := l.prog
    pc := 0#32
    loaded := true }

/-- LOAD (R152); a LOAD that breaks the host's duties is refused by name (log entry 6). -/
def State.loadCommand (s : State) (l : LoadImage) : Host.Outcome State Fault Refusal :=
  if l.legal then .next (s.loadImage l) else .refused .loadDutyBroken

/-- What SNAPSHOT returns (R151). -/
def State.snapshot (s : State) : Snapshot where
  cpu := s.cpu.toImage
  bytes := PerArea.ofFn fun a => bytesOfCells (s.size.get a) (s.mem.get a)

/-- Each byte list of a RESTORE has the length `SIZE[a]` (R151). -/
def State.restoreFits (s : State) (img : Snapshot) : Bool :=
  Area.all.all fun a => (img.bytes.get a).length == s.size.get a

/-- RESTORE (R151): the registers and every byte of every area; refused whole, without effect, if a length is
wrong. -/
def State.restore (s : State) (img : Snapshot) : State :=
  if s.restoreFits img then
    { s with
      cpu := img.cpu.toCpu
      mem := PerArea.ofFn fun a => cellsOfBytes 0 (img.bytes.get a) }
  else s

/-- One host command on an idle core (R150). While `LOADED = 0`, STEP, RUN, SNAPSHOT and RESTORE have no effect
(R190). -/
def State.command (s : State) (c : Command) : Host.Outcome State Fault Refusal :=
  match c with
  | .reset       => .next s.resetCommand
  | .load l      => s.loadCommand l
  | .step w      => if s.loaded then s.stepCommand w else .next s
  | .run cancel  => if s.loaded then .next (s.startRun cancel) else .next s
  | .snapshot    => if s.loaded then .next { s with snapshotOut := some s.snapshot } else .next s
  | .restore img => if s.loaded then .next (s.restore img) else .next s

/-- One step of the core: a turn of the RUN in progress, or the host's next command, or, with none to come,
nothing (R150, R178). -/
def State.coreStep (s : State) : Host.Outcome State Fault Refusal :=
  match s.activity with
  | .running cancelIn => s.runTurn cancelIn
  | .idle =>
    match s.pending with
    | [] => .next s
    | c :: rest => State.command { s with pending := rest } c

end Sys2Proof.Machine
end

