-- ==== Sys2Proof/Machine/Step.lean ====
section
/-! DEFINITION. The fixed names of the machine: one step, and where a table row's word is placed for it. -/

namespace Sys2Proof.Machine

/-- One step of the core (`State.coreStep`). -/
def step (s : State) : Host.Outcome State Fault Refusal := s.coreStep

/-- `s` with the table row's word as its loaded program and a RUN in progress at index 0, so that the next step
executes it (log entry 5). -/
def State.withFetchWord (s : State) (nbits w : Nat) : State :=
  s.placeWord (BitVec.ofNat 48 (w % 2 ^ nbits))

end Sys2Proof.Machine
end

