-- ==== Sys2Proof/Machine/Cores.lean ====
section
/-! DEFINITION. Several cores side by side (spec/10_state.md R41, spec/60_exceptions.md R176): each is a whole
machine of its own, and a step of one is a step of that one alone. -/

namespace Sys2Proof.Machine

/-- One step of core number `i`; a number that no core has steps nothing. A fault or refusal is that core's. -/
def stepCore (cores : List State) (i : Nat) : Host.Outcome (List State) Fault Refusal :=
  match cores[i]? with
  | none => .next cores
  | some s =>
    match step s with
    | .next t    => .next (cores.set i t)
    | .fault f   => .fault f
    | .refused r => .refused r

end Sys2Proof.Machine
end

