-- ==== Sys2Proof/Safety.lean ====
section
/-! DEFINITION. What the states of a run satisfy (`State.Inv`), and how a run can have ended
(spec/42_dispatch_and_execution.md R147, spec/60_exceptions.md R179). -/

namespace Sys2Proof.Machine

/-- No two areas have the same code (R6, R60). -/
def areaCodesInjective (codes : PerArea Byte) : Bool :=
  Area.all.all fun a => Area.all.all fun b => codes.get a != codes.get b || decide (a = b)

/-- Every area's size is at most 2^21 (R69) and its listed bytes lie inside it (R50). -/
def areasLegal (size : PerArea Nat) (mem : PerArea (List Host.Cell)) : Bool :=
  Area.all.all fun a => decide (size.get a ≤ Config.maxAreaSize) && cellsBelow (size.get a) (mem.get a)

/-- Before LOAD (R39, R190): no area, no program, `pc` = 0, RESULT = (OK, 0, 0), idle. -/
def State.unloaded (s : State) : Bool :=
  Area.all.all (fun a => s.size.get a == 0) && s.prog.isEmpty && s.pc == 0#32 && s.result == .ok 0#32
    && s.activity == .idle

/-- The invariant of the core. -/
structure State.Inv (s : State) : Prop where
  /-- The memory has its canonical form. -/
  memWf : Memory.wf s.mem = true
  /-- R50, R69. -/
  areas : areasLegal s.size s.mem = true
  /-- R60. -/
  codes : areaCodesInjective s.areaCode = true
  /-- R6, R32. -/
  progLen : s.prog.length ≤ Config.maxProgLen
  /-- R32: `pc` never exceeds `LEN`. -/
  pcInRange : s.pc.toNat ≤ s.prog.length
  /-- R39, R190. -/
  unloaded : s.loaded = false → s.unloaded = true

/-- Structural validity in the words of R86, SV1 to SV5, with `width(WID)` written out (R84). -/
abbrev ValidWord (w : InstrWord) : Prop :=
  (wordKind w).toNat ≤ 4 ∧ (wordWid w).toNat ≤ 3 ∧
  ((wordKind w).toNat = 0 → (wordWid w).toNat = 0 ∧ (wordPayload w).toNat = 0) ∧
  ((wordKind w).toNat = 1 →
    (wordPayload w).toNat <
      (if (wordWid w).toNat = 0 then 2 ^ 1
       else if (wordWid w).toNat = 1 then 2 ^ 8
       else if (wordWid w).toNat = 2 then 2 ^ 16 else 2 ^ 32)) ∧
  ((wordKind w).toNat = 3 ∨ (wordKind w).toNat = 4 → (wordPayload w).toNat < 2 ^ 24)

/-- The last STEP or RUN reported neither a fault nor a defect (R179). -/
def State.reportedOk (s : State) : Bool :=
  match s.result with
  | .ok _      => true
  | .fault _ _ => false
  | .defect _  => false

/-- A RUN is in progress. -/
def State.inRun (s : State) : Bool :=
  match s.activity with
  | .idle      => false
  | .running _ => true

end Sys2Proof.Machine
end

