-- ==== Sys2Proof/Certificates/Slice0/Obligations.lean ====
section
/-! DEFINITION. The statements for the provers. Each docstring names the rule of spec/ it formalises; where the rule
is the spec's own decision or inference, it says so and names it. -/

open Sys2Proof Sys2Proof.Machine

/-! ## Pointer arithmetic -/

/-- R130: `PtrAdd` is the source's formula, and its form by slices. -/
def Obligations.PtrAddIsSourceFormula : Prop :=
  ∀ (a : Word32) (p : Offset),
    ptrAdd a p =
      (a &&& 0xFF000000#32) ||| (((a &&& 0x00FFFFFF#32) + p.setWidth 32) &&& 0x00FFFFFF#32) ∧
    (ptrAdd a p).toNat = (a.toNat / 2 ^ 24) * 2 ^ 24 + (a.toNat % 2 ^ 24 + p.toNat) % 2 ^ 24

/-- The five properties of spec/41_pointer_arithmetic.md section 3, which the spec marks as derived from R130. -/
def Obligations.PtrAddAlgebra : Prop :=
  ∀ (a : Word32) (p q : Offset),
    (ptrAdd a p).extractLsb' 24 8 = a.extractLsb' 24 8 ∧
    ptrAdd a 0#24 = a ∧
    ptrAdd (ptrAdd a p) q = ptrAdd a (p + q) ∧
    ptrAdd (ptrAdd a p) (0#24 - p) = a ∧
    (ptrAdd a p).extractLsb' 0 24 = a.extractLsb' 0 24 + p

/-- R131: the encoding, the whole effect (every register, flag, byte of memory and sequencer register but `AR[1]`
is as before) and the `WidthError` of the narrower pointer widths. The completion statement of `plusAr1P`. -/
def Obligations.PlusAr1PIncrementsByLiteral : Prop :=
  ∀ (lit : Word32) (s : State),
    encode (.plusAr1P lit) = 0x0123#16 ++ lit ∧
    decode (0x0123#16 ++ lit) = .ok (.plusAr1P lit) ∧
    exec (.plusAr1P lit) s = .next
      { s with cpu :=
        { s.cpu with ar1 :=
            (s.cpu.ar1 &&& 0xFF000000#32) |||
              (((s.cpu.ar1 &&& 0x00FFFFFF#32) + (lit &&& 0x00FFFFFF#32)) &&& 0x00FFFFFF#32) } } ∧
    ∀ d : BitVec 4, d.toNat < 3 →
      decode (0x01#8 ++ 0x2#4 ++ d ++ lit) = .error .widthError ∧
      stepWord (0x01#8 ++ 0x2#4 ++ d ++ lit) s = .fault .widthError

/-- R132: the encoding and the whole effect; the increment is the low 24 bits of `ACCU[1]`. The completion statement
of `plusAr1`. -/
def Obligations.PlusAr1IncrementsByAccu1 : Prop :=
  ∀ s : State,
    encode .plusAr1 = 0x010000000000#48 ∧
    decode 0x010000000000#48 = .ok .plusAr1 ∧
    exec .plusAr1 s = .next
      { s with cpu :=
        { s.cpu with ar1 :=
            (s.cpu.ar1 &&& 0xFF000000#32) |||
              (((s.cpu.ar1 &&& 0x00FFFFFF#32) + (s.cpu.accu1 &&& 0x00FFFFFF#32)) &&& 0x00FFFFFF#32) } }

/-- Reading the 24 bits of `ACCU[1]` as a signed number first makes no difference (spec/41_pointer_arithmetic.md
section 2, an inference the spec marks as derived from R130): the offset after the instruction is the old offset plus
the signed number, modulo 2^24. -/
def Obligations.SignedReadingImmaterial : Prop :=
  ∀ s : State, ∃ t, exec .plusAr1 s = .next t ∧
    ((t.cpu.ar1.toNat % 2 ^ 24 : Nat) : Int) =
      ((s.cpu.ar1.toNat % 2 ^ 24 : Nat) + (s.cpu.accu1.extractLsb' 0 24).toInt) % 2 ^ 24 ∧
    t.cpu.ar1.toNat / 2 ^ 24 = s.cpu.ar1.toNat / 2 ^ 24

/-- The frame of both instructions (`plusAr1`, `plusAr1P`): only `AR[1]` may differ, and not its area byte; the
flags, every byte of memory and every access to it, `pc`, RESULT and the rest are as before. -/
def Obligations.InstructionFrame : Prop :=
  ∀ (i : Instr) (s t : State), exec i s = .next t →
    (∀ n, t.cpu.accu n = s.cpu.accu n) ∧
    t.cpu.ar2 = s.cpu.ar2 ∧
    t.cpu.ar1.extractLsb' 24 8 = s.cpu.ar1.extractLsb' 24 8 ∧
    (∀ f, t.getFlag f = s.getFlag f) ∧
    (∀ a o, readByte (t.mem.get a) o = readByte (s.mem.get a) o) ∧
    (∀ a o b w, t.memRead a o b w = s.memRead a o b w) ∧
    t.size = s.size ∧ t.areaCode = s.areaCode ∧ t.prog = s.prog ∧ t.pc = s.pc ∧ t.result = s.result ∧
    t.loaded = s.loaded ∧ t.activity = s.activity ∧ t.pending = s.pending ∧ t.snapshotOut = s.snapshotOut

/-! ## Encoding -/

/-- Decoding and encoding agree in both directions (decision D6 asks for one canonical word per instruction):
every well-formed instruction's word decodes to it, and a word that decodes to it is its word. -/
def Obligations.DecodeAndEncodeAgree : Prop :=
  (∀ i : Instr, i.wellFormed = true → decode (encode i) = .ok i) ∧
  (∀ (w : InstrWord) (i : Instr), decode w = .ok i → i.wellFormed = true ∧ encode i = w)

/-- The partition of the 2^48 words of spec/30_encoding.md section 3 (decisions D2 to D10): which outcome the decode
procedure has on each, the structural conditions in the words of SV1 to SV5. -/
def Obligations.DecodePartition : Prop :=
  ∀ w : InstrWord,
    decode w =
      if ¬ ValidWord w then .error .structuralDefect
      else if (wordOpc w).toNat ≠ 1 then .error .unimplementedInstruction
      else if (wordKind w).toNat = 0 then .ok .plusAr1
      else if (wordKind w).toNat ≠ 2 then .error .operandTypeError
      else if (wordWid w).toNat ≠ 3 then .error .widthError
      else .ok (.plusAr1P (wordPayload w))

/-- Seven words of spec/95_test_vectors.md section 2.4 and one of section 2.7 (the literal `84FFFFFF`), and what they
decode to (decisions D2 to D10). -/
def Obligations.SampleWordsDecode : Prop :=
  decode 0x010000000000#48 = .ok .plusAr1 ∧
  decode 0x012300000001#48 = .ok (.plusAr1P 0x00000001#32) ∧
  decode 0x012384FFFFFF#48 = .ok (.plusAr1P 0x84FFFFFF#32) ∧
  decode 0x000000000000#48 = .error .unimplementedInstruction ∧
  decode 0x01120000FFFF#48 = .error .operandTypeError ∧
  decode 0x012200000001#48 = .error .widthError ∧
  decode 0x011100000100#48 = .error .structuralDefect ∧
  decode 0x005000000000#48 = .error .structuralDefect

/-- Parsing a word gives back the abstract instruction it was made from, for every operand form, those no
instruction takes among them (decisions D4 to D7). -/
def Obligations.OperandFormsRoundTrip : Prop :=
  (∀ (opc : Byte) (o : Option Operand), o.all Operand.wellFormed = true →
    parseWord (encodeOperand opc o) = some (opc, o)) ∧
  (∀ (w : InstrWord) (opc : Byte) (o : Option Operand), parseWord w = some (opc, o) →
    encodeOperand opc o = w ∧ o.all Operand.wellFormed = true)

/-- The literals the assembler makes (decision D26): `byte*8 + bit` below the area byte. -/
def Obligations.AssemblerLiterals : Prop :=
  ∀ (codes : PerArea Byte) (byte : BitVec 21) (bit : BitVec 3) (a : Area) (p : Word32) (w : InstrWord),
    (pointerLiteral codes (.plain byte bit)).toNat = byte.toNat * 8 + bit.toNat ∧
    (pointerLiteral codes (.inArea a byte bit)).toNat =
      (codes.get a).toNat * 2 ^ 24 + (byte.toNat * 8 + bit.toNat) ∧
    (assemble codes (.plusAr1P (.raw p))).toNat = 0x0123 * 2 ^ 32 + p.toNat ∧
    assemble codes .plusAr1 = 0x010000000000#48 ∧
    assemble codes (.word w) = w

/-! ## Registers and flags -/

/-- R23: a `w`-bit write changes the low `w` bits of the one accumulator and nothing else. -/
def Obligations.SetAccuWidthDiscipline : Prop :=
  ∀ (s : State) (n : AccuNum) (w : AccuWidth) (v : BitVec w.bits),
    (∀ k : Nat, ((s.setAccu n w v).cpu.accu n).getLsbD k =
      if k < w.bits then v.getLsbD k else (s.cpu.accu n).getLsbD k) ∧
    (∀ m, m ≠ n → (s.setAccu n w v).cpu.accu m = s.cpu.accu m) ∧
    (∀ m, (s.setAccu n w v).getAr m = s.getAr m) ∧
    (∀ f, (s.setAccu n w v).getFlag f = s.getFlag f) ∧
    s.setAccu n w v = { s with cpu := (s.setAccu n w v).cpu }

/-- A `w`-bit read gives the low `w` bits, unsigned, which a `w`-bit write put there (the unsigned reading is
decision D27). -/
def Obligations.GetAccuLowBits : Prop :=
  ∀ (s : State) (n : AccuNum) (w : AccuWidth) (v : BitVec w.bits),
    (s.getAccu n w).toNat = (s.cpu.accu n).toNat % 2 ^ w.bits ∧
    (s.setAccu n w v).getAccu n w = v

/-- R25: the address-register ports move all 32 bits. -/
def Obligations.AddressRegisterPorts : Prop :=
  ∀ (s : State) (n m : ArNum) (v : Word32),
    (s.setAr n v).getAr m = (if m = n then v else s.getAr m) ∧
    (∀ k, (s.setAr n v).cpu.accu k = s.cpu.accu k) ∧
    (∀ f, (s.setAr n v).getFlag f = s.getFlag f) ∧
    s.setAr n v = { s with cpu := (s.setAr n v).cpu }

/-- R30: each flag is written and read on its own, and no instruction, which all list no flag, changes one. -/
def Obligations.FlagPorts : Prop :=
  (∀ (s : State) (f g : Flag) (b : Bool),
    (s.setFlag f b).getFlag g = (if g = f then b else s.getFlag g) ∧
    (∀ n, (s.setFlag f b).cpu.accu n = s.cpu.accu n) ∧
    (∀ n, (s.setFlag f b).getAr n = s.getAr n) ∧
    s.setFlag f b = { s with cpu := (s.setFlag f b).cpu }) ∧
  (∀ (i : Instr) (s : State), ∃ t, exec i s = .next t ∧ ∀ f, t.getFlag f = s.getFlag f)

/-- The status word on the host port (the bit positions are decision D12): bit by bit, and packing and unpacking
agree up to bits [15:9], which read as zero and are ignored on write. -/
def Obligations.StatusWordPacking : Prop :=
  ∀ (x : StatusWord) (v : BitVec 16),
    (∀ f, x.pack.getLsbD (flagBit f) = x.get f) ∧
    (∀ k, 9 ≤ k → x.pack.getLsbD k = false) ∧
    (∀ f, (StatusWord.unpack v).get f = v.getLsbD (flagBit f)) ∧
    StatusWord.unpack x.pack = x ∧
    (StatusWord.unpack v).pack = v &&& 0x01FF#16 ∧
    (flagBit .FC = 0 ∧ flagBit .RLO = 1 ∧ flagBit .STA = 2 ∧ flagBit .OR = 3 ∧ flagBit .OS = 4 ∧
      flagBit .OV = 5 ∧ flagBit .CC0 = 6 ∧ flagBit .CC1 = 7 ∧ flagBit .BIE = 8)

/-- RESULT as 38 bits (decisions D11, D21): its three fields, and that no two reports share a value. -/
def Obligations.ReportFields : Prop :=
  (∀ i : Word32,
    (Report.ok i).pack.toNat = i.toNat ∧
    (∀ f : Fault, (Report.fault f i).pack.toNat = 2 ^ 36 + f.code.toNat * 2 ^ 32 + i.toNat) ∧
    (Report.defect i).pack.toNat = 2 * 2 ^ 36 + i.toNat) ∧
  (Fault.operandTypeError.code.toNat = 1 ∧ Fault.widthError.code.toNat = 2 ∧
    Fault.areaBoundaryError.code.toNat = 3 ∧ Fault.unimplementedInstruction.code.toNat = 4 ∧
    Fault.unalignedBitOffset.code.toNat = 5) ∧
  (∀ r q : Report, r.pack = q.pack → r = q)

/-! ## The memory-area store -/

/-- The value of a read (spec/20_memory.md section 2): in bounds each width gives its bytes, the lowest offset most
significant (decision D15), and one bit the bit numbered from the least significant (decision D34). -/
def Obligations.MemReadValue : Prop :=
  ∀ (s : State) (a : Area) (o : Nat) (b : BitVec 3),
    (o + 1 ≤ s.size.get a →
      s.memRead a o b .w1 = .ok (BitVec.ofBool ((readByte (s.mem.get a) o).getLsbD b.toNat)) ∧
      s.memRead a o b .w8 = .ok (readByte (s.mem.get a) o)) ∧
    (o + 2 ≤ s.size.get a → ∃ v : BitVec 16, s.memRead a o b .w16 = .ok v ∧
      v.toNat = (readByte (s.mem.get a) o).toNat * 2 ^ 8 + (readByte (s.mem.get a) (o + 1)).toNat) ∧
    (o + 4 ≤ s.size.get a → ∃ v : BitVec 32, s.memRead a o b .w32 = .ok v ∧
      v.toNat = (readByte (s.mem.get a) o).toNat * 2 ^ 24 + (readByte (s.mem.get a) (o + 1)).toNat * 2 ^ 16 +
        (readByte (s.mem.get a) (o + 2)).toNat * 2 ^ 8 + (readByte (s.mem.get a) (o + 3)).toNat)

/-- The bounds check (spec/20_memory.md section 2; that a straddling access faults whole is decision D19): an access
faults exactly when one of its bytes is outside the area, whether it reads or writes. -/
def Obligations.AreaBoundsChecked : Prop :=
  ∀ (s : State) (a : Area) (o : Nat) (b : BitVec 3) (w : Width) (v : BitVec w.bits),
    (s.memRead a o b w = .error .areaBoundaryError ↔ s.size.get a < o + max 1 (w.bits / 8)) ∧
    (s.memWrite a o b w v = .error .areaBoundaryError ↔ s.size.get a < o + max 1 (w.bits / 8)) ∧
    (s.memRead a o b w ≠ .error .areaBoundaryError → ∃ x, s.memRead a o b w = .ok x) ∧
    (s.memWrite a o b w v ≠ .error .areaBoundaryError → ∃ t, s.memWrite a o b w v = .ok t)

/-- A write in bounds completes, and the same access reads the value back (spec/20_memory.md section 2). -/
def Obligations.ReadAfterWrite : Prop :=
  ∀ (s : State) (a : Area) (o : Nat) (b : BitVec 3) (w : Width) (v : BitVec w.bits),
    o + max 1 (w.bits / 8) ≤ s.size.get a →
    ∃ t, s.memWrite a o b w v = .ok t ∧ t.memRead a o b w = .ok v

/-- A write changes only its bytes in its area, and a one-bit write only its bit (decision D34): every other byte of
every area, and everything that is no memory, is as before. -/
def Obligations.MemWriteFrame : Prop :=
  ∀ (s t : State) (a : Area) (o : Nat) (b : BitVec 3) (w : Width) (v : BitVec w.bits),
    s.memWrite a o b w v = .ok t →
    (∀ p, p < o ∨ o + max 1 (w.bits / 8) ≤ p →
      readByte (t.mem.get a) p = readByte (s.mem.get a) p) ∧
    (∀ a' p, a' ≠ a → readByte (t.mem.get a') p = readByte (s.mem.get a') p) ∧
    (w = .w1 → ∀ k, k ≠ b.toNat →
      (readByte (t.mem.get a) o).getLsbD k = (readByte (s.mem.get a) o).getLsbD k) ∧
    t = { s with mem := t.mem }

/-- A write keeps the invariant: the canonical form of the memory and the areas' bounds. -/
def Obligations.MemWriteKeepsInv : Prop :=
  ∀ (s t : State) (a : Area) (o : Nat) (b : BitVec 3) (w : Width) (v : BitVec w.bits),
    s.Inv → s.memWrite a o b w v = .ok t → t.Inv

/-- `area_of` under an injective `AREA_CODE` (spec/20_memory.md section 4; the map is the OPEN parameter of decision
D13, and the statement holds for every value of it): each area is found by its code, and any other code finds none. -/
def Obligations.AreaOfInvertsAreaCode : Prop :=
  ∀ s : State, areaCodesInjective s.areaCode = true →
    (∀ a, s.areaOf (s.areaCode.get a) = some a) ∧
    (∀ c, (∀ a, s.areaCode.get a ≠ c) → s.areaOf c = none)

/-! ## The operand resolver -/

/-- R112: the low 24 bits of a pointer literal in a 32-bit value whose area byte is zero; another kind raises
`OperandTypeError`. -/
def Obligations.ToPointerValueMasks : Prop :=
  ∀ (w : Width) (lit : Word32) (n : ArNum),
    toPointerValue ⟨.ptr, w, lit⟩ = .ok (lit &&& 0x00FFFFFF#32) ∧
    (lit &&& 0x00FFFFFF#32).extractLsb' 24 8 = 0#8 ∧
    toPointerValue ⟨.imm, w, lit⟩ = .error .operandTypeError ∧
    toPointerValue ⟨.arrel n, w, lit⟩ = .error .operandTypeError

/-- The two immediate kinds resolve to their values: a well-formed immediate to the number its literal writes, a
pointer to its offset in 32 bits; reading them gives the value and writing them raises `OperandTypeError`
(spec/40_operand_resolver.md sections 2 and 3). -/
def Obligations.ResolveImmediates : Prop :=
  ∀ (s : State) (w : Width) (lit : Word32),
    ((⟨.imm, w, lit⟩ : Operand).wellFormed = true → ∃ v : BitVec w.bits,
      s.resolve ⟨.imm, w, lit⟩ = .ok (.value w v) ∧ v.toNat = lit.toNat ∧
      s.readOperand (.value w v) = .ok v ∧
      ∀ x, s.writeOperand (.value w v) x = .error .operandTypeError) ∧
    s.resolve ⟨.ptr, .w32, lit⟩ = .ok (.value .w32 (lit &&& 0x00FFFFFF#32))

/-- The address-register-relative arm of the resolver (the effective address is decision D17, its checks and their
order D14 and D16): a misaligned bit number first, then an unmapped area code, else the place; reading and writing
the place are the store's accesses. -/
def Obligations.ResolveArRelative : Prop :=
  ∀ (s : State) (n : ArNum) (w : Width) (lit : Word32),
    let ea := ((s.getAr n).toNat % 2 ^ 24 + lit.toNat % 2 ^ 24) % 2 ^ 24
    let code := (s.getAr n).extractLsb' 24 8
    (w ≠ .w1 → ea % 8 ≠ 0 → s.resolve ⟨.arrel n, w, lit⟩ = .error .unalignedBitOffset) ∧
    ((w = .w1 ∨ ea % 8 = 0) → s.areaOf code = none →
      s.resolve ⟨.arrel n, w, lit⟩ = .error .areaBoundaryError) ∧
    (∀ a, (w = .w1 ∨ ea % 8 = 0) → s.areaOf code = some a →
      s.resolve ⟨.arrel n, w, lit⟩ = .ok (.location ⟨a, ea / 8, BitVec.ofNat 3 (ea % 8), w⟩) ∧
      s.readOperand (.location ⟨a, ea / 8, BitVec.ofNat 3 (ea % 8), w⟩) =
        s.memRead a (ea / 8) (BitVec.ofNat 3 (ea % 8)) w ∧
      ∀ v, s.writeOperand (.location ⟨a, ea / 8, BitVec.ofNat 3 (ea % 8), w⟩) v =
        s.memWrite a (ea / 8) (BitVec.ofNat 3 (ea % 8)) w v)

/-! ## Steps and runs -/

/-- The outcome of the instruction step on every word (spec/42_dispatch_and_execution.md section 2; the partition of the
words rests on decisions D2 to D8, the order of the checks on D10): the refusal of a structurally invalid word, the
three faults of the decode checks, each where its cause stands, and otherwise what `exec` answers. -/
def Obligations.StepWordOutcomes : Prop :=
  ∀ (w : InstrWord) (s : State),
    stepWord w s =
      if ¬ ValidWord w then .refused .structuralDefect
      else if (wordOpc w).toNat ≠ 1 then .fault .unimplementedInstruction
      else if (wordKind w).toNat = 0 then exec .plusAr1 s
      else if (wordKind w).toNat ≠ 2 then .fault .operandTypeError
      else if (wordWid w).toNat ≠ 3 then .fault .widthError
      else exec (.plusAr1P (wordPayload w)) s

/-- A step runs the decoded instruction: while a RUN is in progress, not at the end of the program and with no cancel
request up, the step is `exec` of what `PROG[pc]` decodes to, then the next index. -/
def Obligations.StepRunsDecodedInstruction : Prop :=
  ∀ (s : State) (c : Option Nat) (w : InstrWord) (i : Instr),
    s.activity = .running c → s.prog[s.pc.toNat]? = some w → c ≠ some 0 →
    decode w = .ok i → i.wellFormed = true →
    ∃ t, exec i s = .next t ∧
      step s = .next { t with pc := t.pc + 1#32, activity := .running (c.map fun k => k - 1) }

/-- The RUN command and each turn of its loop, in the order of spec/42_dispatch_and_execution.md section 3 (the cancel
request is decision D22, the defect decision D8). How the host stands in the state is the model's choice: that RUN is
one step which takes the command from `pending` (log entry 4), and that a cancel request is up at `some 0` and comes
one sample nearer per turn (log entry 8). -/
def Obligations.RunLoop : Prop :=
  (∀ (s : State) (c : Option Nat) (rest : List Command),
    s.activity = .idle → s.pending = .run c :: rest → s.loaded = true →
    step s = .next { s with pending := rest, pc := 0#32, activity := .running c }) ∧
  (∀ (s : State) (c : Option Nat), s.Inv → s.activity = .running c →
    (s.pc.toNat = s.prog.length →
      step s = .next { s with result := .ok (BitVec.ofNat 32 s.prog.length), activity := .idle }) ∧
    (s.pc.toNat < s.prog.length → c = some 0 →
      step s = .next { s with result := .ok s.pc, activity := .idle }) ∧
    (∀ w, s.prog[s.pc.toNat]? = some w → c ≠ some 0 →
      (∀ f, stepWord w s = .fault f →
        step s = .next { s with result := .fault f s.pc, activity := .idle }) ∧
      (stepWord w s = .refused .structuralDefect →
        step s = .next { s with result := .defect s.pc, activity := .idle }) ∧
      (∀ t, stepWord w s = .next t →
        step s = .next { t with pc := BitVec.ofNat 32 (s.pc.toNat + 1),
                                activity := .running (c.map fun k => k - 1) })))

/-- R147: the four ways a RUN ends, exactly one of them, and what RESULT then says; nothing but RESULT changes. An
empty program ends at once with the state unchanged. -/
def Obligations.RunEndsInFourWays : Prop :=
  (∀ (s t : State) (c : Option Nat), s.Inv → s.activity = .running c → step s = .next t → t.activity = .idle →
    t = { s with result := t.result, activity := .idle } ∧
    ((s.pc.toNat = s.prog.length ∧ t.result = .ok (BitVec.ofNat 32 s.prog.length)) ∨
     (s.pc.toNat < s.prog.length ∧ c = some 0 ∧ t.result = .ok s.pc) ∨
     (s.pc.toNat < s.prog.length ∧ c ≠ some 0 ∧ ∃ w f, s.prog[s.pc.toNat]? = some w ∧
        stepWord w s = .fault f ∧ t.result = .fault f s.pc) ∨
     (s.pc.toNat < s.prog.length ∧ c ≠ some 0 ∧ ∃ w, s.prog[s.pc.toNat]? = some w ∧
        stepWord w s = .refused .structuralDefect ∧ t.result = .defect s.pc))) ∧
  (∀ (s : State) (c : Option Nat), s.prog = [] → s.pc = 0#32 → s.activity = .running c →
    step s = .next { s with result := .ok 0#32, activity := .idle })

/-- Every RUN terminates (spec/42_dispatch_and_execution.md section 3, marked there as derived): within one step per
instruction left and one more the core is idle, and the run has changed nothing but the offset in `AR[1]`
(spec/41_pointer_arithmetic.md section 2), `pc` and RESULT, whose index is where it stopped. That a turn of the loop is
one step, which the bound counts, is the model's choice (log entry 4). -/
def Obligations.RunTerminates : Prop :=
  ∀ (s : State) (c : Option Nat), s.Inv → s.activity = .running c →
    ∃ (k : Nat) (t : State), k ≤ s.prog.length - s.pc.toNat + 1 ∧
      Host.Core.run Sys2Proof.core k s = .next t ∧
      t = { s with cpu := { s.cpu with ar1 := t.cpu.ar1 }, pc := t.pc, result := t.result, activity := .idle } ∧
      t.cpu.ar1.extractLsb' 24 8 = s.cpu.ar1.extractLsb' 24 8 ∧
      s.pc.toNat ≤ t.pc.toNat ∧ t.pc.toNat ≤ s.prog.length ∧
      (t.result = .ok t.pc ∨ (∃ f, t.result = .fault f t.pc) ∨ t.result = .defect t.pc)

/-- R169: taking a fault, under RUN and under STEP, writes RESULT and stops, and does nothing else. -/
def Obligations.FaultEntry : Prop :=
  (∀ (s : State) (c : Option Nat) (w : InstrWord) (f : Fault),
    s.activity = .running c → s.prog[s.pc.toNat]? = some w → c ≠ some 0 → stepWord w s = .fault f →
    step s = .next { s with result := .fault f s.pc, activity := .idle }) ∧
  (∀ (s : State) (w : InstrWord) (rest : List Command) (f : Fault),
    s.activity = .idle → s.pending = .step w :: rest → s.loaded = true → stepWord w s = .fault f →
    step s = .next { s with pending := rest, result := .fault f 0#32, activity := .idle })

/-- A structurally invalid word (spec/30_encoding.md section 2; the reading of a defect is decision D8): the instruction
step is a refusal, and the sequencer takes it like a fault, with the status DEFECT, under RUN with the index `pc` and
under STEP with the index 0 (spec/42_dispatch_and_execution.md sections 3 and 4). -/
def Obligations.DefectEntry : Prop :=
  (∀ (s : State) (w : InstrWord), ¬ ValidWord w → stepWord w s = .refused .structuralDefect) ∧
  (∀ (s : State) (c : Option Nat) (w : InstrWord),
    s.activity = .running c → s.prog[s.pc.toNat]? = some w → c ≠ some 0 → ¬ ValidWord w →
    step s = .next { s with result := .defect s.pc, activity := .idle }) ∧
  (∀ (s : State) (w : InstrWord) (rest : List Command),
    s.activity = .idle → s.pending = .step w :: rest → s.loaded = true → ¬ ValidWord w →
    step s = .next { s with pending := rest, result := .defect 0#32, activity := .idle })

/-- The STEP command on a word that decodes (that it leaves `pc` and PROG alone is decision D23). -/
def Obligations.StepCommandRunsWord : Prop :=
  ∀ (s : State) (w : InstrWord) (rest : List Command) (i : Instr),
    s.activity = .idle → s.pending = .step w :: rest → s.loaded = true → decode w = .ok i →
    ∃ t, exec i s = .next t ∧
      step s = .next { s with cpu := t.cpu, pending := rest, result := .ok 0#32, activity := .idle }

/-- The instruction step depends on `CpuState` and the word alone (spec/42_dispatch_and_execution.md section 1): two
states with the same registers have the same outcome, and the same registers after it. -/
def Obligations.StepWordDependsOnRegistersOnly : Prop :=
  ∀ (w : InstrWord) (s s' : State), s.cpu = s'.cpu →
    (∀ t, stepWord w s = .next t → stepWord w s' = .next { s' with cpu := t.cpu }) ∧
    (∀ f, stepWord w s = .fault f → stepWord w s' = .fault f) ∧
    (∀ r, stepWord w s = .refused r → stepWord w s' = .refused r)

/-- A program cannot observe that it is being stepped (spec/60_exceptions.md section 4): a word has the same effect on
the registers and the memory under STEP as under RUN. -/
def Obligations.SteppingIsInvisible : Prop :=
  ∀ (s r s' r' : State) (w : InstrWord) (rest : List Command) (c : Option Nat),
    s.activity = .idle → s.pending = .step w :: rest → s.loaded = true →
    r.activity = .running c → r.prog[r.pc.toNat]? = some w → c ≠ some 0 →
    s.cpu = r.cpu → s.mem = r.mem → step s = .next s' → step r = .next r' →
    s'.cpu = r'.cpu ∧ s'.mem = r'.mem

/-- A step answers a next state, but for a LOAD that breaks the host's duties (log entry 6, a DESIGN CHOICE), which is
refused by name: nothing is ever stuck (spec/60_exceptions.md section 4). -/
def Obligations.StepAlwaysAnswers : Prop :=
  ∀ s : State,
    (∃ t, step s = .next t) ∨
    (s.activity = .idle ∧ ∃ l rest, s.pending = .load l :: rest ∧ l.legal = false ∧
      step s = .refused .loadDutyBroken)

/-- No instruction reaches memory (spec/20_memory.md section 5, marked there as derived): an instruction step raises
neither memory fault, and a step of the core changes an area only by LOAD, RESTORE or RESET. -/
def Obligations.NoInstructionReachesMemory : Prop :=
  (∀ (w : InstrWord) (s : State),
    stepWord w s ≠ .fault .areaBoundaryError ∧ stepWord w s ≠ .fault .unalignedBitOffset ∧
    ∀ t, stepWord w s = .next t → t.mem = s.mem) ∧
  (∀ s t : State, step s = .next t → t.mem ≠ s.mem →
    s.activity = .idle ∧ ∃ x rest, s.pending = x :: rest ∧
      ((∃ l, x = .load l) ∨ (∃ img, x = .restore img) ∨ x = .reset))

/-- Which steps change a flag (spec/10_state.md section 4): only a LOAD or a RESTORE, or a RESET, after which this
model gives the flags the values of log entry 1 (a DESIGN CHOICE). -/
def Obligations.FlagsChangeOnlyByHost : Prop :=
  ∀ (s t : State) (f : Flag), step s = .next t → t.getFlag f ≠ s.getFlag f →
    s.activity = .idle ∧ ∃ x rest, s.pending = x :: rest ∧
      ((∃ l, x = .load l) ∨ (∃ img, x = .restore img) ∨ x = .reset)

/-- The program and the sizes change only by LOAD or RESET, and the constant of the build never (spec/10_state.md
sections 5 and 6). -/
def Obligations.ProgramAndConfigurationConstant : Prop :=
  ∀ s t : State, step s = .next t →
    t.areaCode = s.areaCode ∧
    (t.prog ≠ s.prog ∨ t.size ≠ s.size ∨ t.loaded ≠ s.loaded →
      s.activity = .idle ∧ ∃ x rest, s.pending = x :: rest ∧ ((∃ l, x = .load l) ∨ x = .reset))

/-- Several cores are independent (spec/10_state.md section 8): a step of one is `step` of that core's own state, with
its outcome, it leaves every other core as it is, and steps of two cores can be taken in either order. -/
def Obligations.CoresIndependent : Prop :=
  (∀ (cores : List State) (i : Nat) (s : State), cores[i]? = some s →
    (∀ t, step s = .next t →
      stepCore cores i = .next (cores.set i t) ∧ (cores.set i t)[i]? = some t) ∧
    (∀ r, step s = .refused r → stepCore cores i = .refused r)) ∧
  (∀ (cores cs : List State) (i : Nat), stepCore cores i = .next cs →
    cs.length = cores.length ∧
    (∀ j, j ≠ i → cs[j]? = cores[j]?) ∧
    (∀ (j : Nat) (ds es : List State), j ≠ i → stepCore cores j = .next ds → stepCore cs j = .next es →
      stepCore ds i = .next es))

/-! ## The invariant -/

/-- Every step of the core keeps the invariant `State.Inv`. -/
def Obligations.StepKeepsInv : Prop :=
  ∀ s t : State, s.Inv → step s = .next t → t.Inv

/-- The state after reset satisfies the invariant. Its clause that `AREA_CODE` is injective rests on the default codes
that `State.reset` holds (spec/20_memory.md section 4, decision D13), which are the model's choice: log entry 3. -/
def Obligations.ResetSatisfiesInv : Prop := State.reset.Inv

/-! ## Host commands and reset -/

/-- What reset leaves (decision D24): nothing loaded, no area, an empty program, `pc` = 0, RESULT = (OK, 0, 0), at
power-on and after the RESET command. -/
def Obligations.ResetLeaves : Prop :=
  (State.reset.loaded = false ∧ State.reset.pc = 0#32 ∧ State.reset.result = .ok 0#32 ∧ State.reset.prog = [] ∧
    ∀ a, State.reset.size.get a = 0) ∧
  (∀ (s : State) (rest : List Command), s.activity = .idle → s.pending = .reset :: rest →
    ∃ t, step s = .next t ∧ t.loaded = false ∧ t.pc = 0#32 ∧ t.result = .ok 0#32 ∧ t.prog = [] ∧
      (∀ a, t.size.get a = 0) ∧ t.areaCode = s.areaCode ∧ t.pending = rest)

/-- Before LOAD the commands STEP, RUN, SNAPSHOT and RESTORE have no effect (decision D24): the command is gone and
everything else is as it was. -/
def Obligations.CommandsBeforeLoadHaveNoEffect : Prop :=
  ∀ (s : State) (x : Command) (rest : List Command),
    s.activity = .idle → s.loaded = false → s.pending = x :: rest →
    ((∃ w, x = .step w) ∨ (∃ c, x = .run c) ∨ x = .snapshot ∨ (∃ img, x = .restore img)) →
    step s = .next { s with pending := rest }

/-- LOAD (decisions D9 and D25): after a LOAD that keeps the host's duties every register, size, byte and word is what
the host supplied, whatever the words are, `pc` is 0 and RESULT is unchanged. -/
def Obligations.LoadSetsState : Prop :=
  ∀ (s : State) (l : LoadImage) (rest : List Command),
    s.activity = .idle → s.pending = .load l :: rest →
    (∀ a, (l.bytes.get a).length = l.size.get a ∧ l.size.get a ≤ 2 ^ 21) → l.prog.length ≤ 2 ^ 32 - 1 →
    ∃ t, step s = .next t ∧
      t.cpu.accu1 = l.cpu.accu1 ∧ t.cpu.accu2 = l.cpu.accu2 ∧ t.cpu.accu3 = l.cpu.accu3 ∧
      t.cpu.accu4 = l.cpu.accu4 ∧ t.cpu.ar1 = l.cpu.ar1 ∧ t.cpu.ar2 = l.cpu.ar2 ∧
      (∀ f, t.getFlag f = l.cpu.stw.getLsbD (flagBit f)) ∧
      t.size = l.size ∧
      (∀ a o b, (l.bytes.get a)[o]? = some b → readByte (t.mem.get a) o = b) ∧
      t.prog = l.prog ∧ t.pc = 0#32 ∧ t.loaded = true ∧
      t.result = s.result ∧ t.areaCode = s.areaCode ∧ t.activity = .idle ∧ t.pending = rest ∧
      t.snapshotOut = s.snapshotOut

/-- A LOAD that breaks the host's duties is refused by name (the model's choice, log entry 6). -/
def Obligations.UnlawfulLoadRefused : Prop :=
  ∀ (s : State) (l : LoadImage) (rest : List Command),
    s.activity = .idle → s.pending = .load l :: rest →
    ((∃ a, (l.bytes.get a).length ≠ l.size.get a ∨ 2 ^ 21 < l.size.get a) ∨ 2 ^ 32 - 1 < l.prog.length) →
    step s = .refused .loadDutyBroken

/-- SNAPSHOT (decision D33): it returns the registers, the packed status word and each area's bytes in offset order,
and changes nothing. -/
def Obligations.SnapshotReturnsState : Prop :=
  ∀ (s : State) (rest : List Command),
    s.activity = .idle → s.pending = .snapshot :: rest → s.loaded = true →
    ∃ x : Snapshot, step s = .next { s with pending := rest, snapshotOut := some x } ∧
      x.cpu.accu1 = s.cpu.accu1 ∧ x.cpu.accu2 = s.cpu.accu2 ∧ x.cpu.accu3 = s.cpu.accu3 ∧
      x.cpu.accu4 = s.cpu.accu4 ∧ x.cpu.ar1 = s.cpu.ar1 ∧ x.cpu.ar2 = s.cpu.ar2 ∧
      x.cpu.stw = s.cpu.stw.pack ∧
      ∀ a, (x.bytes.get a).length = s.size.get a ∧
        ∀ o, o < s.size.get a → (x.bytes.get a)[o]? = some (readByte (s.mem.get a) o)

/-- RESTORE (decision D33): with byte lists of the areas' lengths it writes exactly the registers and the bytes; with a
wrong length it has no effect. -/
def Obligations.RestoreWritesState : Prop :=
  ∀ (s : State) (img : Snapshot) (rest : List Command),
    s.activity = .idle → s.pending = .restore img :: rest → s.loaded = true →
    ((∀ a, (img.bytes.get a).length = s.size.get a) →
      ∃ t : State, step s = .next { s with pending := rest, cpu := t.cpu, mem := t.mem } ∧
        t.cpu.accu1 = img.cpu.accu1 ∧ t.cpu.accu2 = img.cpu.accu2 ∧ t.cpu.accu3 = img.cpu.accu3 ∧
        t.cpu.accu4 = img.cpu.accu4 ∧ t.cpu.ar1 = img.cpu.ar1 ∧ t.cpu.ar2 = img.cpu.ar2 ∧
        (∀ f, t.getFlag f = img.cpu.stw.getLsbD (flagBit f)) ∧
        ∀ a o b, (img.bytes.get a)[o]? = some b → readByte (t.mem.get a) o = b) ∧
    ((∃ a, (img.bytes.get a).length ≠ s.size.get a) → step s = .next { s with pending := rest })

/-- Restoring a snapshot of the state itself changes nothing, and a snapshot after a RESTORE that fits returns what
was restored, up to the bits of the status word's carrier that are ignored (decisions D12 and D33). -/
def Obligations.SnapshotRestoreRoundTrip : Prop :=
  (∀ s : State, s.Inv → s.restore s.snapshot = s) ∧
  (∀ (s : State) (img : Snapshot), (∀ a, (img.bytes.get a).length = s.size.get a) →
    (s.restore img).snapshot = { img with cpu := { img.cpu with stw := img.cpu.stw &&& 0x01FF#16 } })
end

