-- ==== Sys2Proof/Laws/State.lean ====
section
/-! SUPPORT. One lemma per field per update of State, true by rfl, so that no proof unfolds a record update. -/

namespace Sys2Proof.Machine

variable (s : State)

/-! `set_ar` writes the registers only (R25). -/

@[simp] theorem State.setAr_cpu (n : ArNum) (v : Word32) :
    (s.setAr n v).cpu = s.cpu.setAr n v := rfl
@[simp] theorem State.setAr_mem (n : ArNum) (v : Word32) :
    (s.setAr n v).mem = s.mem := rfl
@[simp] theorem State.setAr_size (n : ArNum) (v : Word32) :
    (s.setAr n v).size = s.size := rfl
@[simp] theorem State.setAr_areaCode (n : ArNum) (v : Word32) :
    (s.setAr n v).areaCode = s.areaCode := rfl
@[simp] theorem State.setAr_prog (n : ArNum) (v : Word32) :
    (s.setAr n v).prog = s.prog := rfl
@[simp] theorem State.setAr_pc (n : ArNum) (v : Word32) :
    (s.setAr n v).pc = s.pc := rfl
@[simp] theorem State.setAr_result (n : ArNum) (v : Word32) :
    (s.setAr n v).result = s.result := rfl
@[simp] theorem State.setAr_loaded (n : ArNum) (v : Word32) :
    (s.setAr n v).loaded = s.loaded := rfl
@[simp] theorem State.setAr_activity (n : ArNum) (v : Word32) :
    (s.setAr n v).activity = s.activity := rfl
@[simp] theorem State.setAr_pending (n : ArNum) (v : Word32) :
    (s.setAr n v).pending = s.pending := rfl
@[simp] theorem State.setAr_snapshotOut (n : ArNum) (v : Word32) :
    (s.setAr n v).snapshotOut = s.snapshotOut := rfl

/-! `set_accu` writes the registers only (R23). -/

@[simp] theorem State.setAccu_cpu (n : AccuNum) (w : AccuWidth) (v : BitVec w.bits) :
    (s.setAccu n w v).cpu = s.cpu.setAccuWhole n (mergeLow (s.cpu.accu n) w v) := rfl
@[simp] theorem State.setAccu_mem (n : AccuNum) (w : AccuWidth) (v : BitVec w.bits) :
    (s.setAccu n w v).mem = s.mem := rfl
@[simp] theorem State.setAccu_size (n : AccuNum) (w : AccuWidth) (v : BitVec w.bits) :
    (s.setAccu n w v).size = s.size := rfl
@[simp] theorem State.setAccu_areaCode (n : AccuNum) (w : AccuWidth) (v : BitVec w.bits) :
    (s.setAccu n w v).areaCode = s.areaCode := rfl
@[simp] theorem State.setAccu_prog (n : AccuNum) (w : AccuWidth) (v : BitVec w.bits) :
    (s.setAccu n w v).prog = s.prog := rfl
@[simp] theorem State.setAccu_pc (n : AccuNum) (w : AccuWidth) (v : BitVec w.bits) :
    (s.setAccu n w v).pc = s.pc := rfl
@[simp] theorem State.setAccu_result (n : AccuNum) (w : AccuWidth) (v : BitVec w.bits) :
    (s.setAccu n w v).result = s.result := rfl
@[simp] theorem State.setAccu_loaded (n : AccuNum) (w : AccuWidth) (v : BitVec w.bits) :
    (s.setAccu n w v).loaded = s.loaded := rfl
@[simp] theorem State.setAccu_activity (n : AccuNum) (w : AccuWidth) (v : BitVec w.bits) :
    (s.setAccu n w v).activity = s.activity := rfl
@[simp] theorem State.setAccu_pending (n : AccuNum) (w : AccuWidth) (v : BitVec w.bits) :
    (s.setAccu n w v).pending = s.pending := rfl
@[simp] theorem State.setAccu_snapshotOut (n : AccuNum) (w : AccuWidth) (v : BitVec w.bits) :
    (s.setAccu n w v).snapshotOut = s.snapshotOut := rfl

/-! A flag write writes the status word only (R30). -/

@[simp] theorem State.setFlag_cpu (f : Flag) (b : Bool) :
    (s.setFlag f b).cpu = { s.cpu with stw := s.cpu.stw.set f b } := rfl
@[simp] theorem State.setFlag_mem (f : Flag) (b : Bool) :
    (s.setFlag f b).mem = s.mem := rfl
@[simp] theorem State.setFlag_size (f : Flag) (b : Bool) :
    (s.setFlag f b).size = s.size := rfl
@[simp] theorem State.setFlag_areaCode (f : Flag) (b : Bool) :
    (s.setFlag f b).areaCode = s.areaCode := rfl
@[simp] theorem State.setFlag_prog (f : Flag) (b : Bool) :
    (s.setFlag f b).prog = s.prog := rfl
@[simp] theorem State.setFlag_pc (f : Flag) (b : Bool) :
    (s.setFlag f b).pc = s.pc := rfl
@[simp] theorem State.setFlag_result (f : Flag) (b : Bool) :
    (s.setFlag f b).result = s.result := rfl
@[simp] theorem State.setFlag_loaded (f : Flag) (b : Bool) :
    (s.setFlag f b).loaded = s.loaded := rfl
@[simp] theorem State.setFlag_activity (f : Flag) (b : Bool) :
    (s.setFlag f b).activity = s.activity := rfl
@[simp] theorem State.setFlag_pending (f : Flag) (b : Bool) :
    (s.setFlag f b).pending = s.pending := rfl
@[simp] theorem State.setFlag_snapshotOut (f : Flag) (b : Bool) :
    (s.setFlag f b).snapshotOut = s.snapshotOut := rfl

/-! The end of a STEP or RUN writes RESULT and leaves the core idle (R33). -/

@[simp] theorem State.finish_cpu (r : Report) :
    (s.finish r).cpu = s.cpu := rfl
@[simp] theorem State.finish_mem (r : Report) :
    (s.finish r).mem = s.mem := rfl
@[simp] theorem State.finish_size (r : Report) :
    (s.finish r).size = s.size := rfl
@[simp] theorem State.finish_areaCode (r : Report) :
    (s.finish r).areaCode = s.areaCode := rfl
@[simp] theorem State.finish_prog (r : Report) :
    (s.finish r).prog = s.prog := rfl
@[simp] theorem State.finish_pc (r : Report) :
    (s.finish r).pc = s.pc := rfl
@[simp] theorem State.finish_result (r : Report) :
    (s.finish r).result = r := rfl
@[simp] theorem State.finish_loaded (r : Report) :
    (s.finish r).loaded = s.loaded := rfl
@[simp] theorem State.finish_activity (r : Report) :
    (s.finish r).activity = .idle := rfl
@[simp] theorem State.finish_pending (r : Report) :
    (s.finish r).pending = s.pending := rfl
@[simp] theorem State.finish_snapshotOut (r : Report) :
    (s.finish r).snapshotOut = s.snapshotOut := rfl

/-! Taking a fault (R169). -/

@[simp] theorem State.takeFault_cpu (f : Fault) (i : Word32) :
    (s.takeFault f i).cpu = s.cpu := rfl
@[simp] theorem State.takeFault_mem (f : Fault) (i : Word32) :
    (s.takeFault f i).mem = s.mem := rfl
@[simp] theorem State.takeFault_size (f : Fault) (i : Word32) :
    (s.takeFault f i).size = s.size := rfl
@[simp] theorem State.takeFault_areaCode (f : Fault) (i : Word32) :
    (s.takeFault f i).areaCode = s.areaCode := rfl
@[simp] theorem State.takeFault_prog (f : Fault) (i : Word32) :
    (s.takeFault f i).prog = s.prog := rfl
@[simp] theorem State.takeFault_pc (f : Fault) (i : Word32) :
    (s.takeFault f i).pc = s.pc := rfl
@[simp] theorem State.takeFault_result (f : Fault) (i : Word32) :
    (s.takeFault f i).result = .fault f i := rfl
@[simp] theorem State.takeFault_loaded (f : Fault) (i : Word32) :
    (s.takeFault f i).loaded = s.loaded := rfl
@[simp] theorem State.takeFault_activity (f : Fault) (i : Word32) :
    (s.takeFault f i).activity = .idle := rfl
@[simp] theorem State.takeFault_pending (f : Fault) (i : Word32) :
    (s.takeFault f i).pending = s.pending := rfl
@[simp] theorem State.takeFault_snapshotOut (f : Fault) (i : Word32) :
    (s.takeFault f i).snapshotOut = s.snapshotOut := rfl

/-! Taking a defect (R166). -/

@[simp] theorem State.takeDefect_cpu (i : Word32) :
    (s.takeDefect i).cpu = s.cpu := rfl
@[simp] theorem State.takeDefect_mem (i : Word32) :
    (s.takeDefect i).mem = s.mem := rfl
@[simp] theorem State.takeDefect_size (i : Word32) :
    (s.takeDefect i).size = s.size := rfl
@[simp] theorem State.takeDefect_areaCode (i : Word32) :
    (s.takeDefect i).areaCode = s.areaCode := rfl
@[simp] theorem State.takeDefect_prog (i : Word32) :
    (s.takeDefect i).prog = s.prog := rfl
@[simp] theorem State.takeDefect_pc (i : Word32) :
    (s.takeDefect i).pc = s.pc := rfl
@[simp] theorem State.takeDefect_result (i : Word32) :
    (s.takeDefect i).result = .defect i := rfl
@[simp] theorem State.takeDefect_loaded (i : Word32) :
    (s.takeDefect i).loaded = s.loaded := rfl
@[simp] theorem State.takeDefect_activity (i : Word32) :
    (s.takeDefect i).activity = .idle := rfl
@[simp] theorem State.takeDefect_pending (i : Word32) :
    (s.takeDefect i).pending = s.pending := rfl
@[simp] theorem State.takeDefect_snapshotOut (i : Word32) :
    (s.takeDefect i).snapshotOut = s.snapshotOut := rfl

/-! After an Ok instruction of a RUN (R145). -/

@[simp] theorem State.advance_cpu (c : Option Nat) :
    (s.advance c).cpu = s.cpu := rfl
@[simp] theorem State.advance_mem (c : Option Nat) :
    (s.advance c).mem = s.mem := rfl
@[simp] theorem State.advance_size (c : Option Nat) :
    (s.advance c).size = s.size := rfl
@[simp] theorem State.advance_areaCode (c : Option Nat) :
    (s.advance c).areaCode = s.areaCode := rfl
@[simp] theorem State.advance_prog (c : Option Nat) :
    (s.advance c).prog = s.prog := rfl
@[simp] theorem State.advance_pc (c : Option Nat) :
    (s.advance c).pc = s.pc + 1#32 := rfl
@[simp] theorem State.advance_result (c : Option Nat) :
    (s.advance c).result = s.result := rfl
@[simp] theorem State.advance_loaded (c : Option Nat) :
    (s.advance c).loaded = s.loaded := rfl
@[simp] theorem State.advance_activity (c : Option Nat) :
    (s.advance c).activity = .running (c.map fun k => k - 1) := rfl
@[simp] theorem State.advance_pending (c : Option Nat) :
    (s.advance c).pending = s.pending := rfl
@[simp] theorem State.advance_snapshotOut (c : Option Nat) :
    (s.advance c).snapshotOut = s.snapshotOut := rfl

/-! The start of a RUN (R145). -/

@[simp] theorem State.startRun_cpu (c : Option Nat) :
    (s.startRun c).cpu = s.cpu := rfl
@[simp] theorem State.startRun_mem (c : Option Nat) :
    (s.startRun c).mem = s.mem := rfl
@[simp] theorem State.startRun_size (c : Option Nat) :
    (s.startRun c).size = s.size := rfl
@[simp] theorem State.startRun_areaCode (c : Option Nat) :
    (s.startRun c).areaCode = s.areaCode := rfl
@[simp] theorem State.startRun_prog (c : Option Nat) :
    (s.startRun c).prog = s.prog := rfl
@[simp] theorem State.startRun_pc (c : Option Nat) :
    (s.startRun c).pc = 0#32 := rfl
@[simp] theorem State.startRun_result (c : Option Nat) :
    (s.startRun c).result = s.result := rfl
@[simp] theorem State.startRun_loaded (c : Option Nat) :
    (s.startRun c).loaded = s.loaded := rfl
@[simp] theorem State.startRun_activity (c : Option Nat) :
    (s.startRun c).activity = .running c := rfl
@[simp] theorem State.startRun_pending (c : Option Nat) :
    (s.startRun c).pending = s.pending := rfl
@[simp] theorem State.startRun_snapshotOut (c : Option Nat) :
    (s.startRun c).snapshotOut = s.snapshotOut := rfl

/-! Placing a one-word program. -/

@[simp] theorem State.placeWord_cpu (w : InstrWord) :
    (s.placeWord w).cpu = s.cpu := rfl
@[simp] theorem State.placeWord_mem (w : InstrWord) :
    (s.placeWord w).mem = s.mem := rfl
@[simp] theorem State.placeWord_size (w : InstrWord) :
    (s.placeWord w).size = s.size := rfl
@[simp] theorem State.placeWord_areaCode (w : InstrWord) :
    (s.placeWord w).areaCode = s.areaCode := rfl
@[simp] theorem State.placeWord_prog (w : InstrWord) :
    (s.placeWord w).prog = [w] := rfl
@[simp] theorem State.placeWord_pc (w : InstrWord) :
    (s.placeWord w).pc = 0#32 := rfl
@[simp] theorem State.placeWord_result (w : InstrWord) :
    (s.placeWord w).result = s.result := rfl
@[simp] theorem State.placeWord_loaded (w : InstrWord) :
    (s.placeWord w).loaded = true := rfl
@[simp] theorem State.placeWord_activity (w : InstrWord) :
    (s.placeWord w).activity = .running none := rfl
@[simp] theorem State.placeWord_pending (w : InstrWord) :
    (s.placeWord w).pending = s.pending := rfl
@[simp] theorem State.placeWord_snapshotOut (w : InstrWord) :
    (s.placeWord w).snapshotOut = s.snapshotOut := rfl

/-! LOAD (R39, R152). -/

@[simp] theorem State.loadImage_cpu (l : LoadImage) :
    (s.loadImage l).cpu = l.cpu.toCpu := rfl
@[simp] theorem State.loadImage_mem (l : LoadImage) :
    (s.loadImage l).mem = PerArea.ofFn fun a => cellsOfBytes 0 (l.bytes.get a) := rfl
@[simp] theorem State.loadImage_size (l : LoadImage) :
    (s.loadImage l).size = l.size := rfl
@[simp] theorem State.loadImage_areaCode (l : LoadImage) :
    (s.loadImage l).areaCode = s.areaCode := rfl
@[simp] theorem State.loadImage_prog (l : LoadImage) :
    (s.loadImage l).prog = l.prog := rfl
@[simp] theorem State.loadImage_pc (l : LoadImage) :
    (s.loadImage l).pc = 0#32 := rfl
@[simp] theorem State.loadImage_result (l : LoadImage) :
    (s.loadImage l).result = s.result := rfl
@[simp] theorem State.loadImage_loaded (l : LoadImage) :
    (s.loadImage l).loaded = true := rfl
@[simp] theorem State.loadImage_activity (l : LoadImage) :
    (s.loadImage l).activity = s.activity := rfl
@[simp] theorem State.loadImage_pending (l : LoadImage) :
    (s.loadImage l).pending = s.pending := rfl
@[simp] theorem State.loadImage_snapshotOut (l : LoadImage) :
    (s.loadImage l).snapshotOut = s.snapshotOut := rfl

/-! RESET (R190). -/

@[simp] theorem State.resetCommand_cpu :
    s.resetCommand.cpu = .zero := rfl
@[simp] theorem State.resetCommand_mem :
    s.resetCommand.mem = State.reset.mem := rfl
@[simp] theorem State.resetCommand_size :
    s.resetCommand.size = State.reset.size := rfl
@[simp] theorem State.resetCommand_areaCode :
    s.resetCommand.areaCode = s.areaCode := rfl
@[simp] theorem State.resetCommand_prog :
    s.resetCommand.prog = [] := rfl
@[simp] theorem State.resetCommand_pc :
    s.resetCommand.pc = 0#32 := rfl
@[simp] theorem State.resetCommand_result :
    s.resetCommand.result = .ok 0#32 := rfl
@[simp] theorem State.resetCommand_loaded :
    s.resetCommand.loaded = false := rfl
@[simp] theorem State.resetCommand_activity :
    s.resetCommand.activity = .idle := rfl
@[simp] theorem State.resetCommand_pending :
    s.resetCommand.pending = s.pending := rfl
@[simp] theorem State.resetCommand_snapshotOut :
    s.resetCommand.snapshotOut = none := rfl

/-! The increment of `AR[1]` (R131, R132). -/

@[simp] theorem State.incrementAr1_cpu (p : Offset) :
    (s.incrementAr1 p).cpu = { s.cpu with ar1 := ptrAdd s.cpu.ar1 p } := rfl
@[simp] theorem State.incrementAr1_mem (p : Offset) :
    (s.incrementAr1 p).mem = s.mem := rfl
@[simp] theorem State.incrementAr1_size (p : Offset) :
    (s.incrementAr1 p).size = s.size := rfl
@[simp] theorem State.incrementAr1_areaCode (p : Offset) :
    (s.incrementAr1 p).areaCode = s.areaCode := rfl
@[simp] theorem State.incrementAr1_prog (p : Offset) :
    (s.incrementAr1 p).prog = s.prog := rfl
@[simp] theorem State.incrementAr1_pc (p : Offset) :
    (s.incrementAr1 p).pc = s.pc := rfl
@[simp] theorem State.incrementAr1_result (p : Offset) :
    (s.incrementAr1 p).result = s.result := rfl
@[simp] theorem State.incrementAr1_loaded (p : Offset) :
    (s.incrementAr1 p).loaded = s.loaded := rfl
@[simp] theorem State.incrementAr1_activity (p : Offset) :
    (s.incrementAr1 p).activity = s.activity := rfl
@[simp] theorem State.incrementAr1_pending (p : Offset) :
    (s.incrementAr1 p).pending = s.pending := rfl
@[simp] theorem State.incrementAr1_snapshotOut (p : Offset) :
    (s.incrementAr1 p).snapshotOut = s.snapshotOut := rfl

/-! Register files. -/

@[simp] theorem CpuState.setAr_ar_same (c : CpuState) (n : ArNum) (v : Word32) : (c.setAr n v).ar n = v := by
  cases n <;> rfl

theorem CpuState.setAr_ar_other (c : CpuState) {n m : ArNum} (v : Word32) (h : m ≠ n) :
    (c.setAr n v).ar m = c.ar m := by
  cases n <;> cases m <;> first | rfl | exact absurd rfl h

@[simp] theorem CpuState.setAr_accu (c : CpuState) (n : ArNum) (v : Word32) (m : AccuNum) :
    (c.setAr n v).accu m = c.accu m := by
  cases n <;> cases m <;> rfl

@[simp] theorem CpuState.setAr_stw (c : CpuState) (n : ArNum) (v : Word32) : (c.setAr n v).stw = c.stw := by
  cases n <;> rfl

@[simp] theorem CpuState.setAccuWhole_accu_same (c : CpuState) (n : AccuNum) (v : Word32) :
    (c.setAccuWhole n v).accu n = v := by
  cases n <;> rfl

theorem CpuState.setAccuWhole_accu_other (c : CpuState) {n m : AccuNum} (v : Word32) (h : m ≠ n) :
    (c.setAccuWhole n v).accu m = c.accu m := by
  cases n <;> cases m <;> first | rfl | exact absurd rfl h

@[simp] theorem CpuState.setAccuWhole_ar (c : CpuState) (n : AccuNum) (v : Word32) (m : ArNum) :
    (c.setAccuWhole n v).ar m = c.ar m := by
  cases n <;> cases m <;> rfl

@[simp] theorem CpuState.setAccuWhole_stw (c : CpuState) (n : AccuNum) (v : Word32) :
    (c.setAccuWhole n v).stw = c.stw := by
  cases n <;> rfl

end Sys2Proof.Machine

namespace Sys2Proof

/-! Widths. -/

@[simp] theorem Width.bits_w1 : Width.w1.bits = 1 := rfl
@[simp] theorem Width.bits_w8 : Width.w8.bits = 8 := rfl
@[simp] theorem Width.bits_w16 : Width.w16.bits = 16 := rfl
@[simp] theorem Width.bits_w32 : Width.w32.bits = 32 := rfl
@[simp] theorem AccuWidth.bits_w8 : AccuWidth.w8.bits = 8 := rfl
@[simp] theorem AccuWidth.bits_w16 : AccuWidth.w16.bits = 16 := rfl
@[simp] theorem AccuWidth.bits_w32 : AccuWidth.w32.bits = 32 := rfl

/-! One value per area. -/

@[simp] theorem PerArea.get_ofFn {α : Type} (f : Area → α) (a : Area) : (PerArea.ofFn f).get a = f a := by
  cases a <;> rfl

@[simp] theorem PerArea.get_set_same {α : Type} (p : PerArea α) (a : Area) (x : α) : (p.set a x).get a = x := by
  cases a <;> rfl

theorem PerArea.get_set_other {α : Type} (p : PerArea α) {a b : Area} (x : α) (h : b ≠ a) :
    (p.set a x).get b = p.get b := by
  cases a <;> cases b <;> first | rfl | exact absurd rfl h

theorem PerArea.ext_get {α : Type} {p q : PerArea α} (h : ∀ a, p.get a = q.get a) : p = q := by
  cases p; cases q
  have hI := h .I; have hQ := h .Q; have hM := h .M; have hT := h .T
  have hC := h .C; have hL := h .L; have hDB := h .DB
  simp only [PerArea.get] at *
  subst_vars; rfl

theorem Area.mem_all (a : Area) : a ∈ Area.all := by cases a <;> decide

/-- A check made over `Area.all` is a statement about every area. -/
theorem Area.all_all {f : Area → Bool} : Area.all.all f = true ↔ ∀ a, f a = true := by
  rw [List.all_eq_true]
  exact ⟨fun h a => h a (Area.mem_all a), fun h a _ => h a⟩

end Sys2Proof
end

