-- ==== Sys2Proof/Laws/Decode.lean ====
section
/-! SUPPORT. The laws of the word's fields, of the codes, and what the decoder can answer. -/

namespace Sys2Proof

/-! ## Fields -/

@[simp] theorem wordOpc_packWord (o : Byte) (k d : BitVec 4) (p : Word32) : wordOpc (packWord o k d p) = o := by
  ext i hi
  simp only [wordOpc, packWord, BitVec.getElem_extractLsb', BitVec.getLsbD_append]
  rw [if_neg (by omega), if_neg (by omega), if_neg (by omega), show 40 + i - 32 - 4 - 4 = i by omega]
  rfl

@[simp] theorem wordKind_packWord (o : Byte) (k d : BitVec 4) (p : Word32) : wordKind (packWord o k d p) = k := by
  ext i hi
  simp only [wordKind, packWord, BitVec.getElem_extractLsb', BitVec.getLsbD_append]
  rw [if_neg (by omega), if_neg (by omega), if_pos (by omega), show 36 + i - 32 - 4 = i by omega]
  rfl

@[simp] theorem wordWid_packWord (o : Byte) (k d : BitVec 4) (p : Word32) : wordWid (packWord o k d p) = d := by
  ext i hi
  simp only [wordWid, packWord, BitVec.getElem_extractLsb', BitVec.getLsbD_append]
  rw [if_neg (by omega), if_pos (by omega), show 32 + i - 32 = i by omega]
  rfl

@[simp] theorem wordPayload_packWord (o : Byte) (k d : BitVec 4) (p : Word32) :
    wordPayload (packWord o k d p) = p := by
  ext i hi
  simp only [wordPayload, packWord, BitVec.getElem_extractLsb', BitVec.getLsbD_append]
  rw [if_pos (by omega), show 0 + i = i by omega]
  rfl

/-- A word is made of its four fields. -/
theorem packWord_fields (w : InstrWord) :
    packWord (wordOpc w) (wordKind w) (wordWid w) (wordPayload w) = w := by
  apply BitVec.eq_of_getLsbD_eq
  intro i hi
  simp only [packWord, wordOpc, wordKind, wordWid, wordPayload, BitVec.getLsbD_append,
    BitVec.getLsbD_extractLsb']
  split
  · next h => simp [h]
  · split
    · next h => simp [h]; congr 1; omega
    · split
      · next h => simp [h]; congr 1; omega
      · next h1 h2 h3 =>
        have : i - 32 - 4 - 4 < 8 := by omega
        simp [this]; congr 1; omega

/-! ## Codes -/

@[simp] theorem decodeKind_encodeKind (k : Option OperandKind) : decodeKind (encodeKind k) = some k := by
  rcases k with _ | _ | _ | n
  · rfl
  · rfl
  · rfl
  · cases n <;> rfl

@[simp] theorem decodeWidth_encodeWidth (w : Width) : decodeWidth (encodeWidth w) = some w := by
  cases w <;> rfl

/-- A kind code that is not reserved is the code of its kind. -/
theorem encodeKind_decodeKind {k : BitVec 4} {x : Option OperandKind} (h : decodeKind k = some x) :
    encodeKind x = k := by
  have all : ∀ k : BitVec 4, ((decodeKind k).all fun x => encodeKind x == k) = true := by decide
  have := all k
  rw [h] at this
  simpa using this

/-- A width code that is not reserved is the code of its width. -/
theorem encodeWidth_decodeWidth {d : BitVec 4} {x : Width} (h : decodeWidth d = some x) : encodeWidth x = d := by
  have all : ∀ d : BitVec 4, ((decodeWidth d).all fun x => encodeWidth x == d) = true := by decide
  have := all d
  rw [h] at this
  simpa using this

/-! ## Parsing -/

theorem payloadValid_some (op : Operand) :
    payloadValid (some op.kind) op.width op.lit = op.wellFormed := by
  obtain ⟨k, w, l⟩ := op
  cases k <;> rfl

/-- Parsing the word of an opcode tag and a well-formed operand gives them back. -/
theorem parseWord_encodeOperand (opc : Byte) (o : Option Operand) (h : o.all Operand.wellFormed = true) :
    parseWord (encodeOperand opc o) = some (opc, o) := by
  cases o with
  | none => simp [encodeOperand, parseWord, decodeKind, decodeWidth, payloadValid]
  | some op =>
    have hv : op.wellFormed = true := h
    simp [encodeOperand, parseWord, payloadValid_some, hv]

/-- A structurally valid word is the word of what it parses to. -/
theorem encodeOperand_of_parseWord {w : InstrWord} {opc : Byte} {o : Option Operand}
    (h : parseWord w = some (opc, o)) : encodeOperand opc o = w ∧ o.all Operand.wellFormed = true := by
  unfold parseWord at h
  split at h
  · next kind width hk hw =>
    split at h
    · next hp =>
      have hk' := encodeKind_decodeKind hk
      have hw' := encodeWidth_decodeWidth hw
      simp only [Option.some.injEq, Prod.mk.injEq] at h
      obtain ⟨rfl, rfl⟩ := h
      cases kind with
      | none =>
        simp only [payloadValid, Bool.and_eq_true, beq_iff_eq] at hp
        refine ⟨?_, rfl⟩
        rw [← packWord_fields w, ← hk', ← hw', hp.2, hp.1]
        simp [encodeOperand, encodeKind, encodeWidth]
      | some k =>
        refine ⟨?_, ?_⟩
        · simp only [Option.map_some, encodeOperand, hk', hw', packWord_fields]
        · exact (payloadValid_some ⟨k, width, wordPayload w⟩).symm.trans hp
    · cases h
  · cases h

/-! ## What the decoder answers -/

@[simp] theorem dispatch_one : dispatch 0x01#8 = some .incrementAr1 := rfl

theorem dispatch_other {opc : Byte} (h : opc ≠ 0x01#8) : dispatch opc = none := by simp [dispatch, h]

/-- Everything the decoder can answer, check by check (R87). -/
theorem decode_cases (w : InstrWord) :
    (parseWord w = none ∧ decode w = .error .structuralDefect) ∨
    (∃ opc o, parseWord w = some (opc, o) ∧ opc ≠ 0x01#8 ∧ decode w = .error .unimplementedInstruction) ∨
    (parseWord w = some (0x01#8, none) ∧ decode w = .ok .plusAr1) ∨
    (∃ op, parseWord w = some (0x01#8, some op) ∧ op.kind = .ptr ∧ op.width = .w32 ∧
      decode w = .ok (.plusAr1P op.lit)) ∨
    (∃ op, parseWord w = some (0x01#8, some op) ∧ op.kind = .ptr ∧ op.width ≠ .w32 ∧
      decode w = .error .widthError) ∨
    (∃ op, parseWord w = some (0x01#8, some op) ∧ op.kind ≠ .ptr ∧ decode w = .error .operandTypeError) := by
  unfold decode
  cases hp : parseWord w with
  | none => exact .inl ⟨rfl, rfl⟩
  | some x =>
    obtain ⟨opc, o⟩ := x
    refine .inr ?_
    by_cases h1 : opc = 0x01#8
    · subst h1
      refine .inr ?_
      cases o with
      | none => exact .inl ⟨rfl, rfl⟩
      | some op =>
        refine .inr ?_
        obtain ⟨k, wd, l⟩ := op
        cases k with
        | imm => exact .inr (.inr ⟨_, rfl, by simp, rfl⟩)
        | arrel n => exact .inr (.inr ⟨_, rfl, by simp, rfl⟩)
        | ptr =>
          cases wd with
          | w32 => exact .inl ⟨_, rfl, rfl, rfl, rfl⟩
          | w1 => exact .inr (.inl ⟨_, rfl, rfl, by simp, rfl⟩)
          | w8 => exact .inr (.inl ⟨_, rfl, rfl, by simp, rfl⟩)
          | w16 => exact .inr (.inl ⟨_, rfl, rfl, by simp, rfl⟩)
    · exact .inl ⟨opc, o, rfl, h1, by simp [dispatch_other h1]⟩

end Sys2Proof
end

