-- ==== Sys2Proof/Laws/Memory.lean ====
section
/-! SUPPORT. The laws of the memory-area store: reading after writing, frames, and that every memory operation
keeps the canonical form. -/

namespace Sys2Proof.Machine

/-! ## Cells -/

theorem readByte_eraseByte_same (m : List Host.Cell) (o : Nat) : readByte (eraseByte m o) o = unlistedByte := by
  induction m with
  | nil => rfl
  | cons c rest ih =>
    obtain ⟨k, b⟩ := c
    by_cases h : k = o
    · simpa [eraseByte, h] using ih
    · simpa [eraseByte, h, readByte] using ih

theorem readByte_eraseByte_other (m : List Host.Cell) {o p : Nat} (hp : p ≠ o) :
    readByte (eraseByte m o) p = readByte m p := by
  induction m with
  | nil => rfl
  | cons c rest ih =>
    obtain ⟨k, b⟩ := c
    by_cases h : k = o
    · subst h
      simpa [eraseByte, readByte, Ne.symm hp] using ih
    · have e : eraseByte ((k, b) :: rest) o = (k, b) :: eraseByte rest o := by simp [eraseByte, h]
      rw [e]
      simp only [readByte, ih]

theorem readByte_insertCell_same (m : List Host.Cell) (o : Nat) (v : Byte) (h : ∀ c ∈ m, c.1 ≠ o) :
    readByte (insertCell m o v) o = v := by
  induction m with
  | nil => simp [insertCell, readByte]
  | cons c rest ih =>
    obtain ⟨k, b⟩ := c
    have hk : k ≠ o := h (k, b) (List.mem_cons_self ..)
    by_cases hlt : o < k
    · simp [insertCell, hlt, readByte]
    · simpa [insertCell, hlt, readByte, hk] using ih fun c hc => h c (List.mem_cons_of_mem _ hc)

theorem readByte_insertCell_other (m : List Host.Cell) {o p : Nat} (v : Byte) (hp : p ≠ o) :
    readByte (insertCell m o v) p = readByte m p := by
  induction m with
  | nil => simp [insertCell, readByte, Ne.symm hp]
  | cons c rest ih =>
    obtain ⟨k, b⟩ := c
    by_cases hlt : o < k
    · simp [insertCell, hlt, readByte, Ne.symm hp]
    · simp only [insertCell, hlt, if_false, readByte, ih]

theorem eraseByte_ne (m : List Host.Cell) (o : Nat) : ∀ c ∈ eraseByte m o, c.1 ≠ o := by
  intro c hc
  simpa [eraseByte] using (List.mem_filter.1 hc).2

/-- A byte just written is read back. -/
@[simp] theorem readByte_writeByte_same (m : List Host.Cell) (o : Nat) (v : Byte) :
    readByte (writeByte m o v) o = v := by
  unfold writeByte
  split
  · next h => rw [readByte_eraseByte_same, h]
  · exact readByte_insertCell_same _ _ _ (eraseByte_ne m o)

/-- A write leaves every other byte alone. -/
theorem readByte_writeByte_other (m : List Host.Cell) {o p : Nat} (v : Byte) (hp : p ≠ o) :
    readByte (writeByte m o v) p = readByte m p := by
  unfold writeByte
  split
  · exact readByte_eraseByte_other m hp
  · rw [readByte_insertCell_other _ _ hp, readByte_eraseByte_other m hp]

/-! ## The canonical form -/

theorem cellsWfFrom_mono {lo hi : Nat} (h : lo ≤ hi) {m : List Host.Cell} (hm : cellsWfFrom hi m = true) :
    cellsWfFrom lo m = true := by
  cases m with
  | nil => rfl
  | cons c rest =>
    obtain ⟨k, b⟩ := c
    simp only [cellsWfFrom, Bool.and_eq_true, decide_eq_true_eq] at hm ⊢
    exact ⟨⟨le_trans h hm.1.1, hm.1.2⟩, hm.2⟩

theorem cellsWfFrom_eraseByte {lo : Nat} {m : List Host.Cell} (o : Nat) (hm : cellsWfFrom lo m = true) :
    cellsWfFrom lo (eraseByte m o) = true := by
  induction m generalizing lo with
  | nil => rfl
  | cons c rest ih =>
    obtain ⟨k, b⟩ := c
    simp only [cellsWfFrom, Bool.and_eq_true, decide_eq_true_eq] at hm
    have hrest := ih hm.2
    by_cases h : k = o
    · simpa [eraseByte, h] using cellsWfFrom_mono (show lo ≤ k + 1 by omega) hrest
    · have : eraseByte ((k, b) :: rest) o = (k, b) :: eraseByte rest o := by simp [eraseByte, h]
      simp only [this, cellsWfFrom, Bool.and_eq_true, decide_eq_true_eq]
      exact ⟨hm.1, hrest⟩

theorem cellsWfFrom_insertCell {lo : Nat} {m : List Host.Cell} {o : Nat} {v : Byte} (hlo : lo ≤ o)
    (hv : v ≠ unlistedByte) (hne : ∀ c ∈ m, c.1 ≠ o) (hm : cellsWfFrom lo m = true) :
    cellsWfFrom lo (insertCell m o v) = true := by
  induction m generalizing lo with
  | nil => simp [insertCell, cellsWfFrom, hlo, hv]
  | cons c rest ih =>
    obtain ⟨k, b⟩ := c
    have hk : k ≠ o := hne (k, b) (List.mem_cons_self ..)
    simp only [cellsWfFrom, Bool.and_eq_true, decide_eq_true_eq] at hm
    by_cases hlt : o < k
    · simp only [insertCell, hlt, if_true, cellsWfFrom, Bool.and_eq_true, decide_eq_true_eq]
      exact ⟨⟨hlo, by simpa using hv⟩, ⟨by omega, hm.1.2⟩, hm.2⟩
    · simp only [insertCell, hlt, if_false, cellsWfFrom, Bool.and_eq_true, decide_eq_true_eq]
      exact ⟨hm.1, ih (by omega) (fun c hc => hne c (List.mem_cons_of_mem _ hc)) hm.2⟩

/-- Writing a byte keeps the canonical form. -/
theorem cellsWf_writeByte {m : List Host.Cell} (o : Nat) (v : Byte) (hm : cellsWf m = true) :
    cellsWf (writeByte m o v) = true := by
  unfold writeByte
  split
  · exact cellsWfFrom_eraseByte o hm
  · next hv => exact cellsWfFrom_insertCell (Nat.zero_le _) hv (eraseByte_ne m o) (cellsWfFrom_eraseByte o hm)

theorem cellsWfFrom_cellsOfBytes (o : Nat) (bs : List Byte) : cellsWfFrom o (cellsOfBytes o bs) = true := by
  induction bs generalizing o with
  | nil => rfl
  | cons b bs ih =>
    by_cases h : b = unlistedByte
    · simpa [cellsOfBytes, h] using cellsWfFrom_mono (Nat.le_succ o) (ih (o + 1))
    · simp only [cellsOfBytes, h, if_false, cellsWfFrom, Bool.and_eq_true, decide_eq_true_eq]
      exact ⟨⟨le_refl _, by simpa using h⟩, ih (o + 1)⟩

/-- An area made from a byte list has the canonical form. -/
theorem cellsWf_cellsOfBytes (bs : List Byte) : cellsWf (cellsOfBytes 0 bs) = true :=
  cellsWfFrom_cellsOfBytes 0 bs

/-- A write of any width keeps the canonical form. -/
theorem cellsWf_writeBits {m : List Host.Cell} (o : Nat) (b : BitVec 3) (w : Width) (v : BitVec w.bits)
    (hm : cellsWf m = true) : cellsWf (writeBits m o b w v) = true := by
  cases w
  · exact cellsWf_writeByte _ _ hm
  · exact cellsWf_writeByte _ _ hm
  · exact cellsWf_writeByte _ _ (cellsWf_writeByte _ _ hm)
  · exact cellsWf_writeByte _ _ (cellsWf_writeByte _ _ (cellsWf_writeByte _ _ (cellsWf_writeByte _ _ hm)))

theorem Memory.wf_iff {m : PerArea (List Host.Cell)} : Memory.wf m = true ↔ ∀ a, cellsWf (m.get a) = true :=
  Area.all_all

theorem Memory.wf_set {m : PerArea (List Host.Cell)} {a : Area} {c : List Host.Cell}
    (hm : Memory.wf m = true) (hc : cellsWf c = true) : Memory.wf (m.set a c) = true := by
  rw [Memory.wf_iff] at *
  intro b
  by_cases h : b = a
  · subst h; rwa [PerArea.get_set_same]
  · rw [PerArea.get_set_other _ _ h]; exact hm b

/-- `MemWrite` keeps the canonical form. -/
theorem State.memWrite_wf {s t : State} {a : Area} {o : Nat} {b : BitVec 3} {w : Width} {v : BitVec w.bits}
    (h : s.memWrite a o b w v = .ok t) (hs : Memory.wf s.mem = true) : Memory.wf t.mem = true := by
  unfold State.memWrite at h
  split at h
  · cases h; exact Memory.wf_set hs (cellsWf_writeBits _ _ _ _ (Memory.wf_iff.1 hs a))
  · cases h

/-- `WriteOperand` keeps the canonical form. -/
theorem State.writeOperand_wf {s t : State} {d : OperandValue} {v : BitVec d.width.bits}
    (h : s.writeOperand d v = .ok t) (hs : Memory.wf s.mem = true) : Memory.wf t.mem = true := by
  cases d with
  | value _ _ => cases h
  | location l => exact State.memWrite_wf h hs

theorem Memory.wf_ofBytes (bytes : PerArea (List Byte)) :
    Memory.wf (PerArea.ofFn fun a => cellsOfBytes 0 (bytes.get a)) = true := by
  rw [Memory.wf_iff]
  intro a
  rw [PerArea.get_ofFn]
  exact cellsWf_cellsOfBytes _

/-- LOAD leaves a memory in canonical form. -/
theorem State.loadImage_wf (s : State) (l : LoadImage) : Memory.wf (s.loadImage l).mem = true :=
  Memory.wf_ofBytes _

/-- RESTORE keeps the canonical form. -/
theorem State.restore_wf {s : State} (img : Snapshot) (hs : Memory.wf s.mem = true) :
    Memory.wf (s.restore img).mem = true := by
  unfold State.restore
  split
  · exact Memory.wf_ofBytes _
  · exact hs

theorem State.reset_wf : Memory.wf State.reset.mem = true := by decide

/-! ## Byte lists -/

theorem readByte_below {lo o : Nat} {m : List Host.Cell} (hm : cellsWfFrom lo m = true) (h : o < lo) :
    readByte m o = unlistedByte := by
  induction m generalizing lo with
  | nil => rfl
  | cons c rest ih =>
    obtain ⟨k, b⟩ := c
    simp only [cellsWfFrom, Bool.and_eq_true, decide_eq_true_eq] at hm
    have : k ≠ o := by omega
    simpa [readByte, this] using ih hm.2 (by omega)

/-- A byte of an area made from a byte list. -/
theorem readByte_cellsOfBytes (o i : Nat) (bs : List Byte) (h : i < bs.length) :
    readByte (cellsOfBytes o bs) (o + i) = bs[i] := by
  induction bs generalizing o i with
  | nil => cases h
  | cons b bs ih =>
    cases i with
    | zero =>
      by_cases hb : b = unlistedByte
      · have := readByte_below (cellsWfFrom_cellsOfBytes (o + 1) bs) (Nat.lt_succ_self o)
        simpa [cellsOfBytes, hb] using this
      · simp [cellsOfBytes, hb, readByte]
    | succ i =>
      have hi := ih (o + 1) i (by simpa using h)
      have e : o + 1 + i = o + (i + 1) := by omega
      rw [e] at hi
      by_cases hb : b = unlistedByte
      · simpa [cellsOfBytes, hb] using hi
      · simpa [cellsOfBytes, hb, readByte] using hi

/-- The bytes of an area made from a byte list are the list. -/
theorem bytesOfCells_cellsOfBytes (bs : List Byte) : bytesOfCells bs.length (cellsOfBytes 0 bs) = bs := by
  apply List.ext_getElem
  · simp [bytesOfCells]
  · intro i h1 h2
    simpa [bytesOfCells] using readByte_cellsOfBytes 0 i bs h2

theorem cellsBelow_cellsOfBytes (o : Nat) (bs : List Byte) :
    cellsBelow (o + bs.length) (cellsOfBytes o bs) = true := by
  induction bs generalizing o with
  | nil => rfl
  | cons b bs ih =>
    have hi := ih (o + 1)
    have e : o + 1 + bs.length = o + (b :: bs).length := by simp; omega
    rw [e] at hi
    by_cases hb : b = unlistedByte
    · simpa [cellsOfBytes, hb] using hi
    · simp only [cellsBelow, cellsOfBytes, hb, if_false, List.all_cons, Bool.and_eq_true, decide_eq_true_eq] at hi ⊢
      exact ⟨by simp, hi⟩

/-- Two contents in canonical form that read alike everywhere are equal. -/
theorem cellsWfFrom_ext {lo : Nat} {m n : List Host.Cell} (hm : cellsWfFrom lo m = true)
    (hn : cellsWfFrom lo n = true) (h : ∀ o, readByte m o = readByte n o) : m = n := by
  induction m generalizing lo n with
  | nil =>
    cases n with
    | nil => rfl
    | cons c rest =>
      obtain ⟨k, b⟩ := c
      have hk := h k
      simp only [cellsWfFrom, Bool.and_eq_true] at hn
      simp [readByte] at hk
      simp [hk] at hn
  | cons c rest ih =>
    obtain ⟨k, b⟩ := c
    simp only [cellsWfFrom, Bool.and_eq_true, decide_eq_true_eq] at hm
    cases n with
    | nil =>
      have hk := h k
      simp [readByte] at hk
      simp [hk] at hm
    | cons d rest' =>
      obtain ⟨j, e⟩ := d
      simp only [cellsWfFrom, Bool.and_eq_true, decide_eq_true_eq] at hn
      have hkj : k = j := by
        rcases Nat.lt_trichotomy k j with hlt | heq | hgt
        · have hk := h k
          have hj : j ≠ k := by omega
          have := readByte_below (o := k) hn.2 (by omega)
          simp [readByte, hj, this] at hk
          simp [hk] at hm
        · exact heq
        · have hj := h j
          have hk : k ≠ j := by omega
          have := readByte_below (o := j) hm.2 (by omega)
          simp [readByte, hk, this] at hj
          simp [← hj] at hn
      subst hkj
      have hbe : b = e := by simpa [readByte] using h k
      subst hbe
      congr 1
      refine ih hm.2 hn.2 fun o => ?_
      by_cases ho : k = o
      · subst ho
        rw [readByte_below hm.2 (Nat.lt_succ_self k), readByte_below hn.2 (Nat.lt_succ_self k)]
      · simpa [readByte, ho] using h o

/-- An area beyond its last listed byte. -/
theorem readByte_of_cellsBelow {size o : Nat} {m : List Host.Cell} (hm : cellsBelow size m = true)
    (h : size ≤ o) : readByte m o = unlistedByte := by
  induction m with
  | nil => rfl
  | cons c rest ih =>
    obtain ⟨k, b⟩ := c
    simp only [cellsBelow, List.all_cons, Bool.and_eq_true, decide_eq_true_eq] at hm
    have : k ≠ o := by omega
    simpa [readByte, this] using ih hm.2

/-- Writing an area's bytes back gives the same content. -/
theorem cellsOfBytes_bytesOfCells {size : Nat} {m : List Host.Cell} (hm : cellsWf m = true)
    (hb : cellsBelow size m = true) : cellsOfBytes 0 (bytesOfCells size m) = m := by
  have hlen : (bytesOfCells size m).length = size := by simp [bytesOfCells]
  refine cellsWfFrom_ext (cellsWf_cellsOfBytes _) hm fun o => ?_
  by_cases h : o < size
  · have := readByte_cellsOfBytes 0 o (bytesOfCells size m) (by omega)
    simpa [bytesOfCells] using this
  · have h1 := cellsBelow_cellsOfBytes 0 (bytesOfCells size m)
    rw [readByte_of_cellsBelow h1 (by omega), readByte_of_cellsBelow hb (by omega)]

end Sys2Proof.Machine
end

