-- ==== Sys2Proof/Laws/PerInstr.lean ====
section
/-! SUPPORT. Families of facts about every instruction as syntax, one lemma per constructor. -/

namespace Sys2Proof.Laws.WellFormedWord

/-- The instruction is well formed, and its word is structurally valid and carries the one opcode tag that has a
handler. -/
def Statement (i : Instr) : Prop :=
  i.wellFormed = true ∧ structurallyValid (encode i) = true ∧ wordOpc (encode i) = 0x01#8

theorem plusAr1 : Statement .plusAr1 := ⟨rfl, rfl, rfl⟩

theorem plusAr1P (lit : Word32) : Statement (.plusAr1P lit) := by
  refine ⟨rfl, ?_, wordOpc_packWord ..⟩
  unfold structurallyValid encode
  rw [parseWord_encodeOperand _ _ rfl]
  rfl

end Sys2Proof.Laws.WellFormedWord
end

