-- ==== Sys2Proof/Laws/Pointer.lean ====
section
/-! SUPPORT. The laws of the pointer format, of the masks the source writes it with, and of the register ports the
instructions use. -/

namespace Sys2Proof.Machine

/-- A 32-bit accumulator read gives the whole accumulator. -/
@[simp] theorem State.getAccu_w32 (s : State) (n : AccuNum) : s.getAccu n .w32 = s.cpu.accu n := by
  apply BitVec.eq_of_toNat_eq
  have h := (s.cpu.accu n).isLt
  simp only [State.getAccu, BitVec.extractLsb'_toNat, Nat.shiftRight_zero]
  exact Nat.mod_eq_of_lt h

/-- What a `w`-bit accumulator write leaves in each bit. -/
theorem mergeLow_getLsbD (old : Word32) (w : AccuWidth) (v : BitVec w.bits) (k : Nat) :
    (mergeLow old w v).getLsbD k = if k < w.bits then v.getLsbD k else old.getLsbD k := by
  have append : ∀ (n : Nat) (m : Nat) (x : BitVec n), n + m = 32 →
      (old.extractLsb' n m ++ x).getLsbD k = if k < n then x.getLsbD k else old.getLsbD k := by
    intro n m x h
    rw [BitVec.getLsbD_append]
    split
    · rfl
    · next hk =>
      rw [BitVec.getLsbD_extractLsb', show n + (k - n) = k by omega]
      by_cases h32 : k < 32
      · rw [decide_eq_true (by omega), Bool.true_and]
      · rw [BitVec.getLsbD_of_ge old k (by omega), Bool.and_false]
  cases w with
  | w8 => exact append 8 24 v rfl
  | w16 => exact append 16 16 v rfl
  | w32 =>
    show v.getLsbD k = if k < 32 then v.getLsbD k else old.getLsbD k
    split
    · rfl
    · next hk =>
      rw [BitVec.getLsbD_of_ge v k (Nat.not_lt.1 hk), BitVec.getLsbD_of_ge old k (Nat.not_lt.1 hk)]

/-- The source's mask for the offset. -/
theorem and_offsetMask (a : Word32) : a &&& 0x00FFFFFF#32 = (ptrOffset a).setWidth 32 := by
  apply BitVec.eq_of_toNat_eq
  have h : (16777215 : Nat) = 2 ^ 24 - 1 := by norm_num
  simp only [ptrOffset, BitVec.toNat_and, BitVec.toNat_ofNat, BitVec.toNat_setWidth, BitVec.extractLsb'_toNat,
    Nat.shiftRight_zero, Nat.reducePow, Nat.reduceMod]
  rw [h, Nat.and_two_pow_sub_one_eq_mod]
  omega

/-- The source's mask for the area byte. -/
theorem and_areaMask (a : Word32) : a &&& 0xFF000000#32 = ptrArea a ++ 0#24 := by
  apply BitVec.eq_of_getLsbD_eq
  intro i hi
  rw [BitVec.getLsbD_append]
  interval_cases i <;> simp [ptrArea]

/-- The offset of a value whose area byte is zero. -/
@[simp] theorem ptrOffset_setWidth (p : Offset) : ptrOffset (p.setWidth 32) = p := by
  apply BitVec.eq_of_toNat_eq
  have h := p.isLt
  simp only [ptrOffset, BitVec.extractLsb'_toNat, BitVec.toNat_setWidth, Nat.shiftRight_zero]
  omega

/-- The parts of a pointer put together. -/
@[simp] theorem ptrArea_append (c : Byte) (p : Offset) : ptrArea (c ++ p) = c := by
  apply BitVec.eq_of_getLsbD_eq
  intro i hi
  have h : ¬ 24 + i < 24 := by omega
  simp only [ptrArea, BitVec.getLsbD_extractLsb', hi, decide_true, Bool.true_and]
  rw [BitVec.getLsbD_append, if_neg h, show 24 + i - 24 = i by omega]

@[simp] theorem ptrOffset_append (c : Byte) (p : Offset) : ptrOffset (c ++ p) = p := by
  apply BitVec.eq_of_getLsbD_eq
  intro i hi
  simp only [ptrOffset, BitVec.getLsbD_extractLsb', hi, decide_true, Bool.true_and]
  rw [BitVec.getLsbD_append, if_pos (by omega), show 0 + i = i by omega]

/-- The number a pointer is. -/
theorem toNat_append_offset (c : Byte) (p : Offset) : (c ++ p).toNat = c.toNat * 2 ^ 24 + p.toNat := by
  rw [BitVec.toNat_append, Nat.shiftLeft_eq, Nat.mul_comm, ← Nat.two_pow_add_eq_or_of_lt p.isLt]

theorem ptrOffset_toNat (a : Word32) : (ptrOffset a).toNat = a.toNat % 2 ^ 24 := by
  simp [ptrOffset]

theorem ptrArea_toNat (a : Word32) : (ptrArea a).toNat = a.toNat / 2 ^ 24 := by
  have h := a.isLt
  simp only [ptrArea, BitVec.extractLsb'_toNat, Nat.shiftRight_eq_div_pow]
  omega

end Sys2Proof.Machine
end

