-- ==== Sys2Proof/Laws/Step.lean ====
section
/-! SUPPORT. What each shared operation of the machine can do, said once: an instruction, the instruction step,
the sequencer's handling of its outcome, a turn of the RUN loop, and one step of the core. -/

namespace Sys2Proof.Machine

/-- An instruction increments `AR[1]` by some offset and does nothing else. -/
theorem exec_increments (i : Instr) (s : State) : ∃ p : Offset, exec i s = .next (s.incrementAr1 p) := by
  cases i with
  | plusAr1 => exact ⟨_, rfl⟩
  | plusAr1P lit => exact ⟨_, rfl⟩

/-- The outcome of an instruction step: an instruction ran, a decode fault, or a structural defect. -/
theorem stepWord_cases (w : InstrWord) (s : State) :
    (∃ i p, decode w = .ok i ∧ stepWord w s = .next (s.incrementAr1 p)) ∨
    (∃ f, stepWord w s = .fault f ∧
      (f = .unimplementedInstruction ∨ f = .operandTypeError ∨ f = .widthError)) ∨
    (decode w = .error .structuralDefect ∧ stepWord w s = .refused .structuralDefect) := by
  unfold stepWord
  cases decode w with
  | ok i =>
    obtain ⟨p, hp⟩ := exec_increments i s
    exact .inl ⟨i, p, rfl, hp⟩
  | error r =>
    cases r with
    | structuralDefect => exact .inr (.inr ⟨rfl, rfl⟩)
    | unimplementedInstruction => exact .inr (.inl ⟨_, rfl, .inl rfl⟩)
    | operandTypeError => exact .inr (.inl ⟨_, rfl, .inr (.inl rfl)⟩)
    | widthError => exact .inr (.inl ⟨_, rfl, .inr (.inr rfl)⟩)

/-- What settling an instruction step gives: always a next state. -/
theorem settle_stepWord (s : State) (index : Word32) (onOk : State → State) (w : InstrWord) :
    (∃ p, s.settle index onOk (stepWord w s) = .next (onOk (s.incrementAr1 p))) ∨
    (∃ f, s.settle index onOk (stepWord w s) = .next (s.takeFault f index)) ∨
    s.settle index onOk (stepWord w s) = .next (s.takeDefect index) := by
  rcases stepWord_cases w s with ⟨_, p, _, h⟩ | ⟨f, h, _⟩ | ⟨_, h⟩
  · exact .inl ⟨p, by rw [h]; rfl⟩
  · exact .inr (.inl ⟨f, by rw [h]; rfl⟩)
  · exact .inr (.inr (by rw [h]; rfl))

/-- What a turn of the RUN loop gives: it stops, or it advances after an instruction. -/
theorem runTurn_cases (s : State) (c : Option Nat) :
    (∃ r, s.runTurn c = .next (s.finish r)) ∨
    (s.pc.toNat < s.prog.length ∧ ∃ p, s.runTurn c = .next ((s.incrementAr1 p).advance c)) := by
  unfold State.runTurn
  cases hf : s.fetch with
  | none => exact .inl ⟨_, rfl⟩
  | some w =>
    have hlt : s.pc.toNat < s.prog.length := (List.getElem?_eq_some_iff.1 hf).1
    simp only
    split
    · exact .inl ⟨_, rfl⟩
    · rcases settle_stepWord s s.pc (fun t => t.advance c) w with ⟨p, h⟩ | ⟨f, h⟩ | h
      · exact .inr ⟨hlt, p, h⟩
      · exact .inl ⟨_, h⟩
      · exact .inl ⟨_, h⟩

/-- What the STEP command gives. -/
theorem stepCommand_cases (s : State) (w : InstrWord) :
    ∃ r, s.stepCommand w = .next (s.finish r) ∨
      ∃ p, s.stepCommand w = .next ((s.incrementAr1 p).finish r) := by
  rcases settle_stepWord s 0#32 (fun t => t.finish (.ok 0#32)) w with ⟨p, h⟩ | ⟨f, h⟩ | h
  · exact ⟨_, .inr ⟨p, h⟩⟩
  · exact ⟨_, .inl h⟩
  · exact ⟨_, .inl h⟩

/-- Everything one step of the core can do. -/
theorem step_cases (s : State) :
    (∃ c, s.activity = .running c ∧ step s = s.runTurn c) ∨
    (s.activity = .idle ∧ s.pending = [] ∧ step s = .next s) ∨
    (∃ c rest, s.activity = .idle ∧ s.pending = c :: rest ∧
      step s = State.command { s with pending := rest } c) := by
  unfold step State.coreStep
  cases ha : s.activity with
  | running c => exact .inl ⟨c, rfl, rfl⟩
  | idle =>
    cases hp : s.pending with
    | nil => exact .inr (.inl ⟨rfl, rfl, rfl⟩)
    | cons c rest => exact .inr (.inr ⟨c, rest, rfl, rfl, rfl⟩)

/-- A step while a RUN is in progress. -/
theorem step_running {s : State} {c : Option Nat} (h : s.activity = .running c) : step s = s.runTurn c := by
  unfold step State.coreStep; rw [h]

/-- A step on an idle core that takes the host's next command. -/
theorem step_idle {s : State} {c : Command} {rest : List Command} (ha : s.activity = .idle)
    (hp : s.pending = c :: rest) : step s = State.command { s with pending := rest } c := by
  unfold step State.coreStep; rw [ha]; simp only [hp]

/-- The host's commands on an idle core, each with what it must find. -/
theorem step_takes_step {s : State} {w : InstrWord} {rest : List Command} (ha : s.activity = .idle)
    (hp : s.pending = .step w :: rest) (hl : s.loaded = true) :
    step s = State.stepCommand { s with pending := rest } w := by
  rw [step_idle ha hp]; exact if_pos hl

theorem step_takes_run {s : State} {c : Option Nat} {rest : List Command} (ha : s.activity = .idle)
    (hp : s.pending = .run c :: rest) (hl : s.loaded = true) :
    step s = .next (State.startRun { s with pending := rest } c) := by
  rw [step_idle ha hp]; exact if_pos hl

theorem step_takes_snapshot {s : State} {rest : List Command} (ha : s.activity = .idle)
    (hp : s.pending = .snapshot :: rest) (hl : s.loaded = true) :
    step s = .next { s with pending := rest, snapshotOut := some s.snapshot } := by
  rw [step_idle ha hp]; exact if_pos hl

theorem step_takes_restore {s : State} {img : Snapshot} {rest : List Command} (ha : s.activity = .idle)
    (hp : s.pending = .restore img :: rest) (hl : s.loaded = true) :
    step s = .next (State.restore { s with pending := rest } img) := by
  rw [step_idle ha hp]; exact if_pos hl

/-- A turn of the RUN loop that executes a word. -/
theorem runTurn_executes {s : State} {c : Option Nat} {w : InstrWord} (h : s.prog[s.pc.toNat]? = some w)
    (hc : c ≠ some 0) : s.runTurn c = s.settle s.pc (fun t => t.advance c) (stepWord w s) := by
  unfold State.runTurn State.fetch
  rw [h]
  simp [cancelSeen, hc]

/-- A turn of the RUN loop at the end of the program. -/
theorem runTurn_ends {s : State} (c : Option Nat) (h : s.prog.length ≤ s.pc.toNat) :
    s.runTurn c = .next (s.finish (.ok s.pc)) := by
  unfold State.runTurn State.fetch
  rw [List.getElem?_eq_none h]

/-- The registers an instruction leaves depend on the registers alone. -/
theorem exec_same_cpu (i : Instr) {s s' : State} (h : s.cpu = s'.cpu) :
    ∃ c, exec i s = .next { s with cpu := c } ∧ exec i s' = .next { s' with cpu := c } := by
  cases i with
  | plusAr1 =>
    refine ⟨_, rfl, ?_⟩
    show Host.Outcome.next _ = _
    simp [State.incrementAr1, State.setAr, State.getAccu, State.getAr, h]
  | plusAr1P lit =>
    refine ⟨_, rfl, ?_⟩
    show Host.Outcome.next _ = _
    simp [State.incrementAr1, State.setAr, State.getAr, h]

/-- The RESTORE command keeps everything but the registers and the memory. -/
theorem restore_cases (s : State) (img : Snapshot) :
    s.restore img = s ∨
    (s.restoreFits img = true ∧ s.restore img =
      { s with cpu := img.cpu.toCpu, mem := PerArea.ofFn fun a => cellsOfBytes 0 (img.bytes.get a) }) := by
  unfold State.restore
  split
  · next h => exact .inr ⟨h, rfl⟩
  · exact .inl rfl

/-- What one step can change. Without a LOAD, RESTORE or RESET: `AR[1]` by a pointer increment, `pc`, RESULT and
the model's own fields. -/
theorem step_change {s t : State} (h : step s = .next t) :
    (∃ p, (t.cpu = s.cpu ∨ t.cpu = { s.cpu with ar1 := ptrAdd s.cpu.ar1 p }) ∧
      t = { s with cpu := t.cpu, pc := t.pc, result := t.result, activity := t.activity, pending := t.pending,
                   snapshotOut := t.snapshotOut }) ∨
    (s.activity = .idle ∧ ∃ rest,
      (∃ l, s.pending = .load l :: rest ∧ t = State.loadImage { s with pending := rest } l) ∨
      (∃ img, s.pending = .restore img :: rest ∧ t = State.restore { s with pending := rest } img) ∨
      (s.pending = .reset :: rest ∧ t = State.resetCommand { s with pending := rest })) := by
  rcases step_cases s with ⟨c, ha, e⟩ | ⟨ha, hp, e⟩ | ⟨x, rest, ha, hp, e⟩ <;> rw [e] at h
  · rcases runTurn_cases s c with ⟨r, e⟩ | ⟨_, p, e⟩ <;> rw [e] at h <;> cases h
    · exact .inl ⟨0, .inl rfl, rfl⟩
    · exact .inl ⟨p, .inr rfl, rfl⟩
  · cases h
    exact .inl ⟨0, .inl rfl, rfl⟩
  · cases x with
    | reset =>
      cases h
      exact .inr ⟨ha, rest, .inr (.inr ⟨hp, rfl⟩)⟩
    | load l =>
      simp only [State.command, State.loadCommand] at h
      split at h <;> cases h
      exact .inr ⟨ha, rest, .inl ⟨l, hp, rfl⟩⟩
    | step w =>
      simp only [State.command] at h
      split at h
      · obtain ⟨r, e | ⟨p, e⟩⟩ := stepCommand_cases { s with pending := rest } w <;> rw [e] at h <;> cases h
        · exact .inl ⟨0, .inl rfl, rfl⟩
        · exact .inl ⟨p, .inr rfl, rfl⟩
      · cases h
        exact .inl ⟨0, .inl rfl, rfl⟩
    | run c =>
      simp only [State.command] at h
      split at h <;> cases h <;> exact .inl ⟨0, .inl rfl, rfl⟩
    | snapshot =>
      simp only [State.command] at h
      split at h <;> cases h <;> exact .inl ⟨0, .inl rfl, rfl⟩
    | restore img =>
      simp only [State.command] at h
      split at h <;> cases h
      · exact .inr ⟨ha, rest, .inr (.inl ⟨img, hp, rfl⟩)⟩
      · exact .inl ⟨0, .inl rfl, rfl⟩

/-- A run of one step and more, of any core and of this one. -/
theorem core_run_succ (M : Host.Core) (k : Nat) (s : M.State) : M.run (k + 1) s =
    (match M.step s with
    | .next t => M.run k t
    | .fault f => .fault f
    | .refused r => .refused r) := rfl

theorem run_succ (k : Nat) (s : State) : Host.Core.run Sys2Proof.core (k + 1) s =
    (match step s with
    | .next t => Host.Core.run Sys2Proof.core k t
    | .fault f => .fault f
    | .refused r => .refused r : Host.Outcome State Fault Refusal) := by
  refine (core_run_succ Sys2Proof.core k s).trans ?_
  have h : Host.Core.step Sys2Proof.core s = step s := rfl
  rw [h]
  cases step s <;> rfl

/-! ## The checks, area by area -/

theorem areasLegal_iff {size : PerArea Nat} {mem : PerArea (List Host.Cell)} : areasLegal size mem = true ↔
    ∀ a, size.get a ≤ Config.maxAreaSize ∧ cellsBelow (size.get a) (mem.get a) = true := by
  unfold areasLegal
  rw [Area.all_all]
  simp only [Bool.and_eq_true, decide_eq_true_eq]

theorem LoadImage.legal_iff {l : LoadImage} : l.legal = true ↔
    (∀ a, (l.bytes.get a).length = l.size.get a ∧ l.size.get a ≤ Config.maxAreaSize) ∧
    l.prog.length ≤ Config.maxProgLen := by
  unfold LoadImage.legal
  rw [Bool.and_eq_true, Area.all_all]
  simp only [Bool.and_eq_true, decide_eq_true_eq, beq_iff_eq]

theorem State.restoreFits_iff {s : State} {img : Snapshot} : s.restoreFits img = true ↔
    ∀ a, (img.bytes.get a).length = s.size.get a := by
  unfold State.restoreFits
  rw [Area.all_all]
  simp only [beq_iff_eq]

/-! ## Memory accesses -/

theorem memRead_ok {s : State} {a : Area} {o : Nat} {b : BitVec 3} {w : Width}
    (h : o + accessBytes w ≤ s.size.get a) : s.memRead a o b w = .ok (readBits (s.mem.get a) o b w) := by
  simp [State.memRead, inBounds, h]

theorem memRead_outside {s : State} {a : Area} {o : Nat} {b : BitVec 3} {w : Width}
    (h : s.size.get a < o + accessBytes w) : s.memRead a o b w = .error .areaBoundaryError := by
  simp [State.memRead, inBounds, h]

theorem memWrite_ok {s : State} {a : Area} {o : Nat} {b : BitVec 3} {w : Width} {v : BitVec w.bits}
    (h : o + accessBytes w ≤ s.size.get a) :
    s.memWrite a o b w v = .ok { s with mem := s.mem.set a (writeBits (s.mem.get a) o b w v) } := by
  simp [State.memWrite, inBounds, h]

theorem memWrite_outside {s : State} {a : Area} {o : Nat} {b : BitVec 3} {w : Width} {v : BitVec w.bits}
    (h : s.size.get a < o + accessBytes w) : s.memWrite a o b w v = .error .areaBoundaryError := by
  simp [State.memWrite, inBounds, h]

/-- A write of any width leaves the bytes outside it alone. -/
theorem readByte_writeBits_outside {m : List Host.Cell} {o p : Nat} {b : BitVec 3} {w : Width}
    (v : BitVec w.bits) (h : p < o ∨ o + accessBytes w ≤ p) :
    readByte (writeBits m o b w v) p = readByte m p := by
  cases w <;> simp only [accessBytes] at h <;> simp only [writeBits]
  · exact readByte_writeByte_other _ _ (by omega)
  · exact readByte_writeByte_other _ _ (by omega)
  · rw [readByte_writeByte_other _ _ (by omega), readByte_writeByte_other _ _ (by omega)]
  · rw [readByte_writeByte_other _ _ (by omega), readByte_writeByte_other _ _ (by omega),
      readByte_writeByte_other _ _ (by omega), readByte_writeByte_other _ _ (by omega)]

end Sys2Proof.Machine
end

