-- ==== Sys2Proof/Tests/Slice0.lean ====
section
/-! SUPPORT. The model's own tests. Expected values come from spec/95_test_vectors.md (the section is named at each
test) or from the rule named; the last part has, for every statement with hypotheses, a state that meets them. -/

namespace Sys2Proof.Tests

open Sys2Proof.Machine

/-! ## Well-formedness: a term that each check refuses -/

theorem test_wellFormed_refuses_wide_immediate : (⟨.imm, .w8, 0x100#32⟩ : Operand).wellFormed = false := by decide

theorem test_wellFormed_refuses_wide_offset : (⟨.arrel .ar1, .w32, 0x01000000#32⟩ : Operand).wellFormed = false := by
  decide

theorem test_wellFormed_refuses_two_operands :
    (⟨0x01#8, [⟨.ptr, .w32, 1#32⟩, ⟨.ptr, .w32, 1#32⟩]⟩ : TaggedInstr).wellFormed = false := by decide

theorem test_wellFormed_refuses_bad_operand : (⟨0x01#8, [⟨.imm, .w1, 2#32⟩]⟩ : TaggedInstr).wellFormed = false := by
  decide

theorem test_wellFormed_accepts :
    Instr.plusAr1.wellFormed = true ∧ (Instr.plusAr1P 0xFFFFFFFF#32).wellFormed = true ∧
    (⟨.imm, .w8, 0xFF#32⟩ : Operand).wellFormed = true ∧
    (⟨.arrel .ar2, .w16, 0x00FFFFFF#32⟩ : Operand).wellFormed = true := by decide

/-! ## Decoding (section 2.4; the words are written out from the encoding of R88) -/

/-- OPC 0x01, KIND 0, WID 0, PAYLOAD 0. -/
theorem test_decode_plusAr1 :
    decode 0b000000010000000000000000000000000000000000000000#48 = .ok .plusAr1 := by rfl

/-- OPC 0x01, KIND 2, WID 3, PAYLOAD 0x00000001, and a literal with an area byte. -/
theorem test_decode_plusAr1P :
    decode 0b000000010010001100000000000000000000000000000001#48 = .ok (.plusAr1P 1#32) ∧
    decode 0x012383000020#48 = .ok (.plusAr1P 0x83000020#32) := ⟨rfl, rfl⟩

theorem test_decode_no_handler :
    decode 0x000000000000#48 = .error .unimplementedInstruction ∧
    decode 0x020000000000#48 = .error .unimplementedInstruction ∧
    decode 0xFF2300000001#48 = .error .unimplementedInstruction := ⟨rfl, rfl, rfl⟩

theorem test_decode_wrong_kind :
    decode 0x011300000005#48 = .error .operandTypeError ∧ decode 0x011000000001#48 = .error .operandTypeError ∧
    decode 0x01120000FFFF#48 = .error .operandTypeError ∧ decode 0x013300000008#48 = .error .operandTypeError ∧
    decode 0x014300000008#48 = .error .operandTypeError := ⟨rfl, rfl, rfl, rfl, rfl⟩

theorem test_decode_wrong_width :
    decode 0x012200000001#48 = .error .widthError ∧ decode 0x012100000001#48 = .error .widthError ∧
    decode 0x012000000001#48 = .error .widthError := ⟨rfl, rfl, rfl⟩

theorem test_decode_defects :
    decode 0x015000000000#48 = .error .structuralDefect ∧ decode 0x012400000000#48 = .error .structuralDefect ∧
    decode 0x010000000001#48 = .error .structuralDefect ∧ decode 0x010300000000#48 = .error .structuralDefect ∧
    decode 0x011100000100#48 = .error .structuralDefect ∧ decode 0x011000000002#48 = .error .structuralDefect ∧
    decode 0x011200010000#48 = .error .structuralDefect ∧ decode 0x013301000000#48 = .error .structuralDefect ∧
    decode 0x005000000000#48 = .error .structuralDefect := ⟨rfl, rfl, rfl, rfl, rfl, rfl, rfl, rfl, rfl⟩

/-- The table's rows, as the host numbers their bits. -/
theorem test_decodeTableWord :
    decodeTableWord 48 0x010000000000 = some .plusAr1 ∧
    decodeTableWord 48 0x012384FFFFFF = some (.plusAr1P 0x84FFFFFF#32) ∧
    decodeTableWord 48 0x005000000000 = none := by decide

/-- Section 2.7. -/
theorem test_assembler :
    assemble defaultAreaCode .plusAr1 = 0x010000000000#48 ∧
    assemble defaultAreaCode (.plusAr1P (.plain 2#21 0#3)) = 0x012300000010#48 ∧
    assemble defaultAreaCode (.plusAr1P (.plain 2097151#21 7#3)) = 0x012300FFFFFF#48 ∧
    assemble defaultAreaCode (.plusAr1P (.inArea .M 4#21 0#3)) = 0x012383000020#48 ∧
    assemble defaultAreaCode (.plusAr1P (.inArea .DB 0#21 0#3)) = 0x012384000000#48 ∧
    assemble defaultAreaCode (.plusAr1P (.raw 0x84FFFFFF#32)) = 0x012384FFFFFF#48 := by decide

/-- Program P3 of section 3, as text, with a line that holds only a comment. -/
theorem test_assembleText :
    assembleText defaultAreaCode
      ["+AR1 P#1.0          // 012300000008".toList, "  // nothing".toList, ".word 0x020000000000".toList,
        "+AR1 P#M 4.0".toList] =
      some [0x012300000008#48, 0x020000000000#48, 0x012383000020#48] := by decide

/-- A byte number of 2^21 and a bit number of 8 are beyond the syntax (R91). -/
theorem test_assembleText_rejects :
    parseLine "+AR1 P#2097152.0".toList = none ∧ parseLine "+AR1 P#0.8".toList = none ∧
    parseLine "+AR2".toList = none := by decide

/-- The last line of section 2.7. -/
theorem test_parseLine_hex :
    parseLine "+AR1 P#0x84FFFFFF".toList = some (some (.plusAr1P (.raw 0x84FFFFFF#32))) := by decide

/-- What R91 leaves open of a line's text, as log entry 7 settles it. -/
theorem test_parseLine_choices :
    parseLine "+AR1 P#0007.01".toList = some (some (.plusAr1P (.plain 7#21 1#3))) ∧
    parseLine "+AR1 P#M  4.0".toList = some (some (.plusAr1P (.inArea .M 4#21 0#3))) ∧
    parseLine "+AR1P#0x84ffffff".toList = some (some (.plusAr1P (.raw 0x84FFFFFF#32))) ∧
    parseLine "+AR1 P# 1.0".toList = none ∧ parseLine "+AR1 P#1 . 0".toList = none ∧
    parseLine "+AR1 P#0x 84FFFFFF".toList = none := by decide

/-! ## Pointer arithmetic (sections 2.1 to 2.3) -/

theorem test_ptrAdd :
    ptrAdd 0x84FFFFFF#32 0x000001#24 = 0x84000000#32 ∧ ptrAdd 0xFFFFFFFF#32 0xFFFFFF#24 = 0xFFFFFFFE#32 ∧
    ptrAdd 0x12800000#32 0x800000#24 = 0x12000000#32 ∧ ptrAdd 0x84000000#32 0xFFFFFF#24 = 0x84FFFFFF#32 ∧
    ptrAdd 0x7F123456#32 0x0EDCBA#24 = 0x7F211110#32 := by decide

/-- A state with the given `AR[1]` and `ACCU[1]`. -/
def withRegs (ar1 accu1 : Word32) : State :=
  { State.reset with cpu := { CpuState.zero with ar1 := ar1, accu1 := accu1 } }

/-- `AR[1]` after an instruction. -/
def ar1After (i : Instr) (s : State) : Option Word32 := (nextOf (exec i s)).map fun t => t.cpu.ar1

theorem test_plusAr1P :
    ar1After (.plusAr1P 0x00000001#32) (withRegs 0x84FFFFFF#32 0#32) = some 0x84000000#32 ∧
    ar1After (.plusAr1P 0x84000010#32) (withRegs 0x83000000#32 0#32) = some 0x83000010#32 ∧
    ar1After (.plusAr1P 0xFFFFFFFF#32) (withRegs 0x00000000#32 0#32) = some 0x00FFFFFF#32 ∧
    ar1After (.plusAr1P 0x83000020#32) (withRegs 0x10FFFFF8#32 0#32) = some 0x10000018#32 := by decide

/-- The third case is the one that separates the 24-bit reading from a 16-bit one (C1). -/
theorem test_plusAr1 :
    ar1After .plusAr1 (withRegs 0x10000000#32 0x00000005#32) = some 0x10000005#32 ∧
    ar1After .plusAr1 (withRegs 0x10000000#32 0xAB000001#32) = some 0x10000001#32 ∧
    ar1After .plusAr1 (withRegs 0x10000000#32 0x0000FFFF#32) = some 0x1000FFFF#32 ∧
    ar1After .plusAr1 (withRegs 0x10000005#32 0xFFFFFFFF#32) = some 0x10000004#32 := by decide

/-! ## Accumulators (section 2.6) and the status word (R29) -/

theorem test_getAccu :
    (withRegs 0#32 0xAABBCCDD#32).getAccu .accu1 .w8 = 0xDD#8 ∧
    (withRegs 0#32 0xAABBCCDD#32).getAccu .accu1 .w16 = 0xCCDD#16 := by decide

theorem test_setAccu :
    ((withRegs 0#32 0xAABBCCDD#32).setAccu .accu1 .w8 0x11#8).cpu.accu1 = 0xAABBCC11#32 ∧
    ((withRegs 0#32 0xAABBCC11#32).setAccu .accu1 .w16 0x2233#16).cpu.accu1 = 0xAABB2233#32 ∧
    ((withRegs 0#32 0xAABB2233#32).setAccu .accu1 .w32 0x01020304#32).cpu.accu1 = 0x01020304#32 := by decide

/-- The table of R29: BIE is bit 8, FC bit 0; bits [15:9] are ignored on write. -/
theorem test_statusWord :
    ({ StatusWord.zero with BIE := true, FC := true }).pack = 0x101#16 ∧
    ({ StatusWord.zero with OV := true, CC1 := true }).pack = 0x0A0#16 ∧
    StatusWord.unpack 0xFE02#16 = { StatusWord.zero with RLO := true } := by decide

/-! ## Resolver and memory-area store (section 2.5) -/

/-- `SIZE[M] = 4`, `M = [12, 34, 56, 78]`, every other area of size 0, and the given address registers. -/
def withM (ar1 ar2 : Word32) : State :=
  { State.reset with
    cpu := { CpuState.zero with ar1 := ar1, ar2 := ar2 }
    size := PerArea.set State.reset.size .M 4
    mem := PerArea.set State.reset.mem .M [(0, 0x12#8), (1, 0x34#8), (2, 0x56#8), (3, 0x78#8)]
    loaded := true }

/-- The number an operand reads as, or the fault. -/
def readOf (s : State) (op : Operand) : Except Fault Nat :=
  match s.resolve op with
  | .error f => .error f
  | .ok v =>
    match s.readOperand v with
    | .error f => .error f
    | .ok x => .ok x.toNat

theorem test_resolve_reads :
    readOf (withM 0x83000008#32 0#32) ⟨.arrel .ar1, .w16, 0#32⟩ = .ok 0x3456 ∧
    readOf (withM 0x83000000#32 0#32) ⟨.arrel .ar1, .w32, 0#32⟩ = .ok 0x12345678 ∧
    readOf (withM 0#32 0x83000010#32) ⟨.arrel .ar2, .w16, 0#32⟩ = .ok 0x5678 ∧
    readOf (withM 0x83000001#32 0#32) ⟨.arrel .ar1, .w1, 0#32⟩ = .ok 1 ∧
    readOf (withM 0x83000004#32 0#32) ⟨.arrel .ar1, .w1, 1#32⟩ = .ok 0 ∧
    readOf (withM 0x83FFFFF8#32 0#32) ⟨.arrel .ar1, .w8, 0x10#32⟩ = .ok 0x34 := by
  refine ⟨?_, ?_, ?_, ?_, ?_, ?_⟩ <;> rfl

theorem test_resolve_faults :
    readOf (withM 0x83000008#32 0#32) ⟨.arrel .ar1, .w32, 0#32⟩ = .error .areaBoundaryError ∧
    readOf (withM 0x83000020#32 0#32) ⟨.arrel .ar1, .w8, 0#32⟩ = .error .areaBoundaryError ∧
    readOf (withM 0x83000000#32 0#32) ⟨.arrel .ar1, .w8, 3#32⟩ = .error .unalignedBitOffset ∧
    readOf (withM 0x10000000#32 0#32) ⟨.arrel .ar1, .w8, 0#32⟩ = .error .areaBoundaryError ∧
    readOf (withM 0x10000001#32 0#32) ⟨.arrel .ar1, .w8, 0#32⟩ = .error .unalignedBitOffset ∧
    readOf (withM 0x84000000#32 0#32) ⟨.arrel .ar1, .w8, 0#32⟩ = .error .areaBoundaryError := by
  refine ⟨?_, ?_, ?_, ?_, ?_, ?_⟩ <;> rfl

/-- The bytes of M after a write. -/
def mAfter (a : Except Fault State) : Option (List Byte) := a.toOption.map fun t => t.snapshot.bytes.M

theorem test_memWrite :
    mAfter ((withM 0#32 0#32).memWrite .M 0 0#3 .w32 0x11223344#32) = some [0x11#8, 0x22#8, 0x33#8, 0x44#8] ∧
    mAfter ((withM 0#32 0#32).memWrite .M 1 0#3 .w16 0xABCD#16) = some [0x12#8, 0xAB#8, 0xCD#8, 0x78#8] ∧
    mAfter ((withM 0#32 0#32).memWrite .M 0 0#3 .w1 1#1) = some [0x13#8, 0x34#8, 0x56#8, 0x78#8] ∧
    mAfter ((withM 0#32 0#32).memWrite .M 0 4#3 .w1 0#1) = some [0x02#8, 0x34#8, 0x56#8, 0x78#8] ∧
    mAfter ((withM 0#32 0#32).memWrite .M 3 0#3 .w16 0xABCD#16) = none := by decide

/-- Writing a zero byte keeps the canonical form: the pair is gone. -/
theorem test_memWrite_zero :
    (((withM 0#32 0#32).memWrite .M 1 0#3 .w8 0#8).toOption.map fun t => t.mem.M) =
      some [(0, 0x12#8), (2, 0x56#8), (3, 0x78#8)] := by decide

/-! ## Steps of the core (section 3) -/

/-- A core in the middle of a RUN. -/
def running (prog : List InstrWord) (pc : Word32) (c : Option Nat) (cpu : CpuState) : State :=
  { State.reset with prog := prog, pc := pc, cpu := cpu, loaded := true, activity := .running c }

/-- An idle loaded core whose host will issue the commands. -/
def idle (cmds : List Command) : State := { State.reset with loaded := true, pending := cmds }

/-- The step that the host asks for: the first instruction after reset with its word placed. -/
theorem test_withFetchWord_runs :
    nextOf (step (State.reset.withFetchWord 48 0x012300000010)) =
      some { State.reset.withFetchWord 48 0x012300000010 with
        cpu := { CpuState.zero with ar1 := 0x00000010#32 }, pc := 1#32 } ∧
    nextOf (step (State.reset.withFetchWord 48 0x010000000000)) =
      some { State.reset.withFetchWord 48 0x010000000000 with pc := 1#32 } := by decide

/-- P3 at index 1: RESULT = (FAULT, 4, 1), everything else as before. -/
theorem test_run_fault :
    (nextOf (step (running [0x012300000008#48, 0x020000000000#48] 1#32 none CpuState.zero))).map
        (fun t => (t.result, t.pc, t.cpu, t.activity)) =
      some (.fault .unimplementedInstruction 1#32, 1#32, CpuState.zero, .idle) ∧
    (Report.fault .unimplementedInstruction 1#32).pack = 0x1400000001#38 := by decide

/-- P5: RESULT = (DEFECT, 0, 0); P6: the empty program reports (OK, 0, 0). -/
theorem test_run_defect_and_empty :
    (nextOf (step (running [0x015000000000#48] 0#32 none CpuState.zero))).map (fun t => t.result) =
      some (.defect 0#32) ∧
    (nextOf (step (running [] 0#32 none CpuState.zero))).map (fun t => t.result) = some (.ok 0#32) := by decide

/-- A cancel request is seen before the instruction, but not at the end of the program (R145). -/
theorem test_run_cancel :
    (nextOf (step (running [0x010000000000#48] 0#32 (some 0) CpuState.zero))).map (fun t => (t.result, t.activity)) =
      some (.ok 0#32, .idle) ∧
    (nextOf (step (running [0x010000000000#48] 0#32 (some 1) CpuState.zero))).map (fun t => (t.pc, t.activity)) =
      some (1#32, .running (some 0)) := by decide

/-- P7: STEP of a good word and of a pointer declared 16 bits wide; `pc` is not involved. -/
theorem test_step_command :
    (nextOf (step { idle [.step 0x012300000001#48] with pc := 9#32 })).map
        (fun t => (t.cpu.ar1, t.result, t.pc)) = some (1#32, .ok 0#32, 9#32) ∧
    (nextOf (step { idle [.step 0x012200000001#48] with pc := 9#32 })).map
        (fun t => (t.cpu.ar1, t.result, t.pc)) = some (0#32, .fault .widthError 0#32, 9#32) := by decide

/-- A LOAD of one byte in M and one register, with a status word of 16 ones. -/
def image : LoadImage where
  size := PerArea.set State.reset.size .M 2
  bytes := PerArea.set (PerArea.ofFn fun _ => []) .M [0x00#8, 0x7F#8]
  cpu := ⟨1#32, 2#32, 3#32, 4#32, 5#32, 6#32, 0xFFFF#16⟩
  prog := [0x010000000000#48]

/-- R39, R152: the column "after LOAD". -/
theorem test_load :
    (nextOf (step { State.reset with pending := [.load image] })).map
        (fun t => (t.cpu.ar2, t.cpu.stw.BIE, t.size.M, t.prog, t.loaded)) =
      some (6#32, true, 2, [0x010000000000#48], true) ∧
    (nextOf (step { State.reset with pending := [.load image] })).map (fun t => t.mem.M) =
      some [(1, 0x7F#8)] := by decide

/-- A LOAD with an image of the wrong length is refused by name. -/
theorem test_load_refused :
    step { State.reset with pending := [.load { image with size := State.reset.size }] } =
      .refused .loadDutyBroken := by rfl

/-- Before LOAD a RUN has no effect (R190). -/
theorem test_run_before_load :
    nextOf (step { State.reset with pending := [.run none] }) = some State.reset := by decide

/-- SNAPSHOT gives each area's bytes in offset order and the packed status word (R151). -/
theorem test_snapshot :
    ((nextOf (step { withM 0#32 7#32 with pending := [.snapshot] })).bind fun t => t.snapshotOut).map
        (fun x => (x.bytes.M, x.bytes.DB, x.cpu.ar2, x.cpu.stw)) =
      some ([0x12#8, 0x34#8, 0x56#8, 0x78#8], [], 7#32, 0#16) := by decide

/-- RESTORE with a list that is too short has no effect (R151). -/
theorem test_restore_refused :
    nextOf (step { withM 0#32 7#32 with pending := [.restore ⟨(CpuState.zero).toImage, PerArea.ofFn fun _ => []⟩] }) =
      some (withM 0#32 7#32) := by decide

/-! ## Every statement's hypotheses can be met -/

/-- A core in a RUN, in the invariant. -/
theorem witness_inv (s : State) (hm : Memory.wf s.mem = true) (ha : areasLegal s.size s.mem = true)
    (hc : areaCodesInjective s.areaCode = true) (hp : s.prog.length ≤ Config.maxProgLen)
    (hr : s.pc.toNat ≤ s.prog.length) (hl : s.loaded = true) : s.Inv :=
  ⟨hm, ha, hc, hp, hr, fun h => by rw [hl] at h; cases h⟩

/-- The state of the RUN witnesses: a one-word program at its start. -/
def atWord (w : InstrWord) (c : Option Nat) : State := running [w] 0#32 c CpuState.zero

theorem witness_atWord_inv (w : InstrWord) (c : Option Nat) : (atWord w c).Inv :=
  witness_inv _ State.reset_wf (by exact (by decide : areasLegal State.reset.size State.reset.mem = true))
    (by exact (by decide : areaCodesInjective defaultAreaCode = true)) (by exact (by decide : 1 ≤ Config.maxProgLen))
    (by exact (by decide : (0 : Nat) ≤ 1)) rfl

/-- InstructionFrame. -/
theorem witness_InstructionFrame :
    (∃ t, exec .plusAr1 State.reset = .next t) ∧ ∃ t, exec (.plusAr1P 0xFFFFFFFF#32) State.reset = .next t :=
  ⟨⟨_, rfl⟩, ⟨_, rfl⟩⟩

/-- DecodeAndEncodeAgree, at the largest literal. -/
theorem witness_DecodeAndEncodeAgree :
    Instr.wellFormed .plusAr1 = true ∧ Instr.wellFormed (.plusAr1P 0xFFFFFFFF#32) = true ∧
    decode 0x0123FFFFFFFF#48 = .ok (.plusAr1P 0xFFFFFFFF#32) := ⟨rfl, rfl, rfl⟩

/-- OperandFormsRoundTrip: each kind at the largest literal it admits. -/
theorem witness_OperandFormsRoundTrip :
    (none : Option Operand).all Operand.wellFormed = true ∧
    (some (⟨.imm, .w1, 1#32⟩ : Operand)).all Operand.wellFormed = true ∧
    (some (⟨.ptr, .w32, 0xFFFFFFFF#32⟩ : Operand)).all Operand.wellFormed = true ∧
    (some (⟨.arrel .ar2, .w8, 0x00FFFFFF#32⟩ : Operand)).all Operand.wellFormed = true ∧
    parseWord 0xFF4100FFFFFF#48 = some (0xFF#8, some ⟨.arrel .ar2, .w8, 0x00FFFFFF#32⟩) := by decide

/-- PlusAr1PIncrementsByLiteral: the width codes below 3. -/
theorem witness_PlusAr1PIncrementsByLiteral : (0#4).toNat < 3 ∧ (2#4).toNat < 3 := by decide

/-- SetAccuWidthDiscipline: another accumulator. -/
theorem witness_SetAccuWidthDiscipline : AccuNum.accu2 ≠ AccuNum.accu1 := by decide

/-- StatusWordPacking: the first bit above the flags. -/
theorem witness_StatusWordPacking : (9 : Nat) ≤ 9 ∧ (0xFFFF#16).getLsbD 9 = true := by decide

/-- ReportFields: two reports with the same bits (they are equal). -/
theorem witness_ReportFields : (Report.defect 7#32).pack = (Report.defect 7#32).pack := rfl

/-- MemReadValue: each width ending on the last byte. -/
theorem witness_MemReadValue :
    3 + 1 ≤ (withM 0#32 0#32).size.get .M ∧ 2 + 2 ≤ (withM 0#32 0#32).size.get .M ∧
    0 + 4 ≤ (withM 0#32 0#32).size.get .M := by decide

/-- AreaBoundsChecked: an access in bounds and one that straddles the end. -/
theorem witness_AreaBoundsChecked :
    ((withM 0#32 0#32).memRead .M 2 0#3 .w16).toOption = some 0x5678#16 ∧
    ((withM 0#32 0#32).memWrite .M 2 0#3 .w16 0#16).toOption.isSome = true ∧
    (withM 0#32 0#32).size.get .M < 3 + max 1 (Width.w16.bits / 8) := by decide

/-- ReadAfterWrite: each width ending on the last byte. -/
theorem witness_ReadAfterWrite :
    ∀ w ∈ [(Width.w1, 3), (.w8, 3), (.w16, 2), (.w32, 0)],
      w.2 + max 1 (w.1.bits / 8) ≤ (withM 0#32 0#32).size.get .M := by decide

/-- MemWriteFrame and MemWriteKeepsInv: a write of each kind that is accepted, in the invariant. -/
theorem witness_MemWriteFrame :
    (withM 0#32 0#32).Inv ∧ (∃ t, (withM 0#32 0#32).memWrite .M 3 7#3 .w1 1#1 = .ok t) ∧
    ∃ t, (withM 0#32 0#32).memWrite .M 0 0#3 .w32 0#32 = .ok t :=
  ⟨witness_inv _ (by decide) (by decide) (by decide) (by decide) (by decide) rfl, ⟨_, rfl⟩, ⟨_, rfl⟩⟩

/-- AreaOfInvertsAreaCode: an injective map, and a code that is none of its. -/
theorem witness_AreaOfInvertsAreaCode :
    areaCodesInjective State.reset.areaCode = true ∧ ∀ a ∈ Area.all, State.reset.areaCode.get a ≠ 0x10#8 := by
  decide

/-- ResolveImmediates: the largest 16-bit immediate. -/
theorem witness_ResolveImmediates : (⟨.imm, .w16, 0xFFFF#32⟩ : Operand).wellFormed = true := by decide

/-- ResolveArRelative: a misaligned byte, an unmapped code, and a place; one bit may have any number. -/
theorem witness_ResolveArRelative :
    (Width.w8 ≠ Width.w1 ∧ ((0x83000001#32).toNat % 2 ^ 24) % 8 ≠ 0) ∧
    (withM 0x10000000#32 0#32).areaOf 0x10#8 = none ∧
    (withM 0x83000001#32 0#32).areaOf 0x83#8 = some .M := by decide

/-- StepRunsDecodedInstruction, for both instructions and both kinds of RUN. -/
theorem witness_StepRunsDecodedInstruction :
    (atWord 0x010000000000#48 none).activity = .running none ∧
    (atWord 0x010000000000#48 none).prog[(atWord 0x010000000000#48 none).pc.toNat]? = some 0x010000000000#48 ∧
    (atWord 0x012300000001#48 (some 1)).prog[(0 : Nat)]? = some 0x012300000001#48 ∧
    (some 1 : Option Nat) ≠ some 0 ∧ Instr.wellFormed .plusAr1 = true ∧
    decode 0x010000000000#48 = .ok .plusAr1 ∧ decode 0x012300000001#48 = .ok (.plusAr1P 1#32) :=
  ⟨rfl, rfl, rfl, by decide, rfl, rfl, rfl⟩

/-- RunLoop: the RUN command, the end of the program (alone, and where a cancel request is up too), a cancel, a fault,
a defect and an instruction. -/
theorem witness_RunLoop :
    ((idle [.run none]).activity = .idle ∧ (idle [.run none]).pending = [.run none] ∧
      (idle [.run none]).loaded = true) ∧
    (running [0#48] 1#32 none CpuState.zero).Inv ∧
    (running [0#48] 1#32 none CpuState.zero).pc.toNat = (running [0#48] 1#32 none CpuState.zero).prog.length ∧
    (running [0#48] 1#32 (some 0) CpuState.zero).Inv ∧
    (running [0#48] 1#32 (some 0) CpuState.zero).pc.toNat =
      (running [0#48] 1#32 (some 0) CpuState.zero).prog.length ∧
    (running [0#48] 1#32 (some 0) CpuState.zero).activity = .running (some 0) ∧
    (atWord 0#48 (some 0)).Inv ∧ (atWord 0#48 (some 0)).pc.toNat < (atWord 0#48 (some 0)).prog.length ∧
    stepWord 0#48 (atWord 0#48 none) = .fault .unimplementedInstruction ∧
    stepWord 0x015000000000#48 (atWord 0x015000000000#48 none) = .refused .structuralDefect ∧
    ∃ t, stepWord 0x010000000000#48 (atWord 0x010000000000#48 none) = .next t :=
  ⟨⟨rfl, rfl, rfl⟩, witness_inv _ (by decide) (by decide) (by decide) (by decide) (by decide) rfl, rfl,
    witness_inv _ (by decide) (by decide) (by decide) (by decide) (by decide) rfl, rfl, rfl,
    witness_atWord_inv _ _, by decide, rfl, rfl, ⟨_, rfl⟩⟩

/-- RunEndsInFourWays: a RUN that stops, for each of the four ways, and a RUN of an empty program. -/
theorem witness_RunEndsInFourWays :
    (running [0#48] 1#32 none CpuState.zero).Inv ∧ (∀ w c, (atWord w c).Inv) ∧
    (∀ s ∈ [running [0#48] 1#32 none CpuState.zero, atWord 0#48 (some 0), atWord 0#48 none,
        atWord 0x015000000000#48 none], (nextOf (step s)).map (fun t => t.activity) = some .idle) ∧
    ((running [] 0#32 none CpuState.zero).prog = [] ∧ (running [] 0#32 none CpuState.zero).pc = 0#32 ∧
      (running [] 0#32 none CpuState.zero).activity = .running none) :=
  ⟨witness_inv _ (by decide) (by decide) (by decide) (by decide) (by decide) rfl, witness_atWord_inv, by decide,
    rfl, rfl, rfl⟩

/-- RunTerminates. -/
theorem witness_RunTerminates :
    (atWord 0x010000000000#48 none).Inv ∧ (atWord 0x010000000000#48 none).activity = .running none :=
  ⟨witness_atWord_inv _ _, rfl⟩

/-- FaultEntry, under RUN and under STEP. -/
theorem witness_FaultEntry :
    ((atWord 0x011300000005#48 none).prog[(0 : Nat)]? = some 0x011300000005#48 ∧ (none : Option Nat) ≠ some 0 ∧
      stepWord 0x011300000005#48 (atWord 0x011300000005#48 none) = .fault .operandTypeError) ∧
    ((idle [.step 0x012200000001#48]).activity = .idle ∧ (idle [.step 0x012200000001#48]).loaded = true ∧
      stepWord 0x012200000001#48 (idle [.step 0x012200000001#48]) = .fault .widthError) :=
  ⟨⟨rfl, by decide, rfl⟩, rfl, rfl, rfl⟩

/-- DefectEntry: a word that fails each of SV1 to SV5, and a valid one. -/
theorem witness_DefectEntry :
    ¬ ValidWord 0x015000000000#48 ∧ ¬ ValidWord 0x012400000000#48 ∧ ¬ ValidWord 0x010000000001#48 ∧
    ¬ ValidWord 0x011100000100#48 ∧ ¬ ValidWord 0x013301000000#48 ∧ ValidWord 0x0111000000FF#48 := by
  refine ⟨?_, ?_, ?_, ?_, ?_, ?_⟩ <;> decide

/-- StepCommandRunsWord. -/
theorem witness_StepCommandRunsWord :
    (idle [.step 0x010000000000#48]).activity = .idle ∧ (idle [.step 0x010000000000#48]).loaded = true ∧
    (idle [.step 0x010000000000#48]).pending = [.step 0x010000000000#48] ∧
    decode 0x010000000000#48 = .ok .plusAr1 := ⟨rfl, rfl, rfl, rfl⟩

/-- StepWordDependsOnRegistersOnly and SteppingIsInvisible: two different states with the same registers and
memory, one stepping and one running the same word. -/
theorem witness_SteppingIsInvisible :
    (idle [.step 0x010000000000#48]).cpu = (atWord 0x010000000000#48 none).cpu ∧
    (idle [.step 0x010000000000#48]).mem = (atWord 0x010000000000#48 none).mem ∧
    idle [.step 0x010000000000#48] ≠ atWord 0x010000000000#48 none ∧
    (∃ t, step (idle [.step 0x010000000000#48]) = .next t) ∧ ∃ t, step (atWord 0x010000000000#48 none) = .next t :=
  ⟨rfl, rfl, by decide, ⟨_, rfl⟩, ⟨_, rfl⟩⟩

/-- NoInstructionReachesMemory, FlagsChangeOnlyByHost and ProgramAndConfigurationConstant: a LOAD that changes the
memory, a flag, the program, the sizes and LOADED. -/
theorem witness_changes_by_host :
    (nextOf (step { State.reset with pending := [.load image] })).map
        (fun t => (decide (t.mem ≠ State.reset.mem), t.getFlag .OV, decide (t.prog ≠ []),
          decide (t.size ≠ State.reset.size), t.loaded)) = some (true, true, true, true, true) ∧
    (∃ t, stepWord 0x010000000000#48 State.reset = .next t) := ⟨by decide, ⟨_, rfl⟩⟩

/-- StepWordOutcomes: the word that only its opcode tag, only its kind and only its width keep from being `+AR1 P#0.1`,
and one whose opcode and kind are both wrong, where the opcode decides. -/
theorem witness_StepWordOutcomes :
    (ValidWord 0x022300000001#48 ∧ ValidWord 0x011300000001#48 ∧ ValidWord 0x012200000001#48 ∧
      ValidWord 0x021300000001#48) ∧
    stepWord 0x022300000001#48 State.reset = .fault .unimplementedInstruction ∧
    stepWord 0x011300000001#48 State.reset = .fault .operandTypeError ∧
    stepWord 0x012200000001#48 State.reset = .fault .widthError ∧
    stepWord 0x021300000001#48 State.reset = .fault .unimplementedInstruction :=
  ⟨⟨by decide, by decide, by decide, by decide⟩, rfl, rfl, rfl, rfl⟩

/-- CoresIndependent: a core whose LOAD is refused. -/
theorem witness_CoresIndependent_refused :
    [State.reset, { State.reset with pending := [.load { image with size := State.reset.size }] }][1]? =
      some { State.reset with pending := [.load { image with size := State.reset.size }] } ∧
    step { State.reset with pending := [.load { image with size := State.reset.size }] } =
      .refused .loadDutyBroken := ⟨rfl, rfl⟩

/-- CoresIndependent: two cores, each stepping an instruction. -/
theorem witness_CoresIndependent :
    ((nextOf (stepCore [atWord 0x012300000001#48 none, atWord 0x012300000002#48 none] 0)).bind
      fun cs => nextOf (stepCore cs 1)).map (fun es => es.map fun t => t.cpu.ar1) = some [1#32, 2#32] := by decide

/-- StepKeepsInv: reset, and a core in a RUN. -/
theorem witness_StepKeepsInv :
    (atWord 0x010000000000#48 none).Inv ∧ ∃ t, step (atWord 0x010000000000#48 none) = .next t :=
  ⟨witness_atWord_inv _ _, ⟨_, rfl⟩⟩

/-- ResetLeaves: a RESET to come. -/
theorem witness_ResetLeaves :
    (idle [.reset]).activity = .idle ∧ (idle [.reset]).pending = [.reset] := ⟨rfl, rfl⟩

/-- CommandsBeforeLoadHaveNoEffect: each of the four commands on a core not loaded. -/
theorem witness_CommandsBeforeLoadHaveNoEffect :
    ∀ x ∈ [Command.step 0#48, .run none, .snapshot, .restore ⟨(CpuState.zero).toImage, PerArea.ofFn fun _ => []⟩],
      ({ State.reset with pending := [x] } : State).activity = .idle ∧
      ({ State.reset with pending := [x] } : State).loaded = false ∧
      ({ State.reset with pending := [x] } : State).pending = [x] := by decide

/-- LoadSetsState: an image that keeps the host's duties. -/
theorem witness_LoadSetsState :
    (∀ a ∈ Area.all, (image.bytes.get a).length = image.size.get a ∧ image.size.get a ≤ 2 ^ 21) ∧
    image.prog.length ≤ 2 ^ 32 - 1 := by decide

/-- UnlawfulLoadRefused: a wrong length, and a size one above the largest. -/
theorem witness_UnlawfulLoadRefused :
    (image.bytes.get .M).length ≠ State.reset.size.get .M ∧
    2 ^ 21 < (PerArea.set image.size .DB 2097153).get .DB := by decide

/-- The third way to break the duties: a program one word longer than the longest. -/
theorem witness_UnlawfulLoadRefused_program :
    2 ^ 32 - 1 < ({ image with prog := List.replicate (2 ^ 32) 0#48 } : LoadImage).prog.length := by
  rw [List.length_replicate]; norm_num

/-- SnapshotReturnsState. -/
theorem witness_SnapshotReturnsState :
    (idle [.snapshot]).activity = .idle ∧ (idle [.snapshot]).pending = [.snapshot] ∧
    (idle [.snapshot]).loaded = true := ⟨rfl, rfl, rfl⟩

/-- RestoreWritesState and SnapshotRestoreRoundTrip: an image that fits M and one that does not, on a loaded core in
the invariant. -/
theorem witness_RestoreWritesState :
    (withM 0#32 0#32).Inv ∧ (withM 0#32 0#32).loaded = true ∧ (withM 0#32 0#32).activity = .idle ∧
    (∀ a ∈ Area.all,
      ((PerArea.set (PerArea.ofFn fun _ => []) .M [1#8, 2#8, 3#8, 4#8] : PerArea (List Byte)).get a).length =
        (withM 0#32 0#32).size.get a) ∧
    ((PerArea.ofFn fun _ => [] : PerArea (List Byte)).get .M).length ≠ (withM 0#32 0#32).size.get .M :=
  ⟨witness_inv _ (by decide) (by decide) (by decide) (by decide) (by decide) rfl, rfl, rfl, by decide, by decide⟩

end Sys2Proof.Tests
end

section
/-! PROOFS. The ports of the accumulators (R22, R23), the address registers (R25) and the flags (R30): what each port
reads after a write to the same and to another register, and what an instruction leaves in the flags. -/

namespace Sys2Proof.Machine

/-! ## The flag register -/

/-- R30, on the status word: a write to one flag changes no other. -/
theorem StatusWord.get_set (x : StatusWord) (f g : Flag) (b : Bool) :
    (x.set f b).get g = if g = f then b else x.get g := by
  cases f <;> cases g <;> rfl

@[simp] theorem CpuState.accu_withStw (c : CpuState) (x : StatusWord) (n : AccuNum) :
    ({ c with stw := x } : CpuState).accu n = c.accu n := by
  cases n <;> rfl

@[simp] theorem CpuState.ar_withStw (c : CpuState) (x : StatusWord) (n : ArNum) :
    ({ c with stw := x } : CpuState).ar n = c.ar n := by
  cases n <;> rfl

/-! ## What each port reads after each write -/

variable (s : State)

@[simp] theorem State.getFlag_setFlag (f g : Flag) (b : Bool) :
    (s.setFlag f b).getFlag g = if g = f then b else s.getFlag g :=
  s.cpu.stw.get_set f g b

@[simp] theorem State.getAr_setFlag (f : Flag) (b : Bool) (n : ArNum) :
    (s.setFlag f b).getAr n = s.getAr n :=
  s.cpu.ar_withStw _ n

@[simp] theorem State.getAr_setAr (n m : ArNum) (v : Word32) :
    (s.setAr n v).getAr m = if m = n then v else s.getAr m := by
  split
  · next h => subst h; exact s.cpu.setAr_ar_same m v
  · next h => exact s.cpu.setAr_ar_other v h

@[simp] theorem State.getFlag_setAr (n : ArNum) (v : Word32) (f : Flag) :
    (s.setAr n v).getFlag f = s.getFlag f :=
  congrArg (fun x => x.get f) (s.cpu.setAr_stw n v)

@[simp] theorem State.getAr_setAccu (n : AccuNum) (w : AccuWidth) (v : BitVec w.bits) (m : ArNum) :
    (s.setAccu n w v).getAr m = s.getAr m :=
  s.cpu.setAccuWhole_ar n _ m

@[simp] theorem State.getFlag_setAccu (n : AccuNum) (w : AccuWidth) (v : BitVec w.bits) (f : Flag) :
    (s.setAccu n w v).getFlag f = s.getFlag f :=
  congrArg (fun x => x.get f) (s.cpu.setAccuWhole_stw n _)

/-- The pointer increment is a write of `AR[1]` alone, so it keeps every flag (R31). -/
@[simp] theorem State.getFlag_incrementAr1 (p : Offset) (f : Flag) :
    (s.incrementAr1 p).getFlag f = s.getFlag f :=
  s.getFlag_setAr .ar1 _ f

/-- R23, bit by bit: the written accumulator has the value's bits below the width and its old ones above. -/
theorem State.setAccu_getLsbD (n : AccuNum) (w : AccuWidth) (v : BitVec w.bits) (k : Nat) :
    ((s.setAccu n w v).cpu.accu n).getLsbD k =
      if k < w.bits then v.getLsbD k else (s.cpu.accu n).getLsbD k := by
  rw [State.setAccu_cpu, CpuState.setAccuWhole_accu_same, mergeLow_getLsbD]

/-! ## The obligations -/

/-- Settles O12: the bits are those of `mergeLow`, and the write is a replacement of one accumulator. -/
theorem setAccuWidthDiscipline : Obligations.SetAccuWidthDiscipline := by
  intro s n w v
  exact ⟨s.setAccu_getLsbD n w v, fun _ hm => s.cpu.setAccuWhole_accu_other _ hm,
    s.getAr_setAccu n w v, s.getFlag_setAccu n w v, rfl⟩

/-- Settles O14: the write is a replacement of one address register. -/
theorem addressRegisterPorts : Obligations.AddressRegisterPorts := by
  intro s n m v
  exact ⟨s.getAr_setAr n m v, s.cpu.setAr_accu n v, s.getFlag_setAr n v, rfl⟩

/-- Settles O15: the write replaces one flag of the status word, and every instruction is an increment of `AR[1]`. -/
theorem flagPorts : Obligations.FlagPorts := by
  constructor
  · intro s f g b
    exact ⟨s.getFlag_setFlag f g b, s.cpu.accu_withStw _, s.getAr_setFlag f b, rfl⟩
  · intro i s
    obtain ⟨p, hp⟩ := exec_increments i s
    exact ⟨_, hp, s.getFlag_incrementAr1 p⟩

end Sys2Proof.Machine
end

section
/-! PROOFS. The pointer decoder of the operand resolver (R112): `toPointerValue` on each operand kind, and the zero
area byte of what it answers. -/

namespace Sys2Proof.Machine

/-- A value widened from an offset has a zero area byte (beside `ptrOffset_setWidth`). -/
@[simp] theorem ptrArea_setWidth (p : Offset) : ptrArea (p.setWidth 32) = 0#8 := by
  apply BitVec.eq_of_toNat_eq
  have h := p.isLt
  rw [ptrArea_toNat, BitVec.toNat_setWidth, BitVec.toNat_ofNat]
  omega

/-- R112: the mask is the source's way to write the literal's offset in 32 bits. -/
theorem toPointerValue_ptr (w : Width) (lit : Word32) :
    toPointerValue ⟨.ptr, w, lit⟩ = .ok (lit &&& 0x00FFFFFF#32) :=
  congrArg Except.ok (and_offsetMask lit).symm

theorem ptrArea_and_offsetMask (a : Word32) : ptrArea (a &&& 0x00FFFFFF#32) = 0#8 := by
  rw [and_offsetMask, ptrArea_setWidth]

/-- Settles O24: the masked literal is its offset in 32 bits, and the other two kinds are the arms that raise. -/
theorem toPointerValueMasks : Obligations.ToPointerValueMasks := by
  intro w lit n
  exact ⟨toPointerValue_ptr w lit, ptrArea_and_offsetMask lit, rfl, rfl⟩

end Sys2Proof.Machine
end

section
/-! PROOFS. Pointer arithmetic (R130 to R132): the pointer increment as the source's masks and as a number, and the
encoding and the effect of `+AR1` in its two forms. -/

namespace Sys2Proof.Machine

/-! ## The pointer increment (R130) -/

/-- The offset is the low part of a pointer, so no carry comes into it from outside. -/
theorem ptrOffset_add (a b : Word32) : ptrOffset (a + b) = ptrOffset a + ptrOffset b := by
  apply BitVec.eq_of_toNat_eq
  rw [ptrOffset_toNat, BitVec.toNat_add, BitVec.toNat_add, ptrOffset_toNat, ptrOffset_toNat]
  omega

/-- An area byte and an offset that do not overlap are joined by `or`. -/
theorem append_zero_or_setWidth (c : Byte) (o : Offset) : (c ++ 0#24) ||| o.setWidth 32 = c ++ o := by
  apply BitVec.eq_of_getLsbD_eq
  intro i hi
  rw [BitVec.getLsbD_or, BitVec.getLsbD_append, BitVec.getLsbD_append, BitVec.getLsbD_setWidth]
  by_cases h : i < 24
  · simp [h, hi]
  · simp [h, BitVec.getLsbD_of_ge o i (Nat.not_lt.1 h)]

/-- R130, the source's masks. -/
theorem ptrAdd_eq_masks (a : Word32) (p : Offset) :
    ptrAdd a p =
      (a &&& 0xFF000000#32) ||| (((a &&& 0x00FFFFFF#32) + p.setWidth 32) &&& 0x00FFFFFF#32) := by
  rw [and_areaMask, and_offsetMask, and_offsetMask, ptrOffset_add, ptrOffset_setWidth, ptrOffset_setWidth,
    append_zero_or_setWidth]
  rfl

/-- R130, as a number. -/
theorem ptrAdd_toNat (a : Word32) (p : Offset) :
    (ptrAdd a p).toNat = (a.toNat / 2 ^ 24) * 2 ^ 24 + (a.toNat % 2 ^ 24 + p.toNat) % 2 ^ 24 := by
  rw [ptrAdd, toNat_append_offset, ptrArea_toNat, BitVec.toNat_add, ptrOffset_toNat]

/-- The increment by another pointer's offset, as R131 and R132 write it. -/
theorem ptrAdd_ptrOffset (a b : Word32) :
    ptrAdd a (ptrOffset b) =
      (a &&& 0xFF000000#32) ||| (((a &&& 0x00FFFFFF#32) + (b &&& 0x00FFFFFF#32)) &&& 0x00FFFFFF#32) := by
  rw [ptrAdd_eq_masks, and_offsetMask b]

/-- Settles O1: the area byte and the sum of the offsets are disjoint bits, and their places are powers of two. -/
theorem ptrAddIsSourceFormula : Obligations.PtrAddIsSourceFormula :=
  fun a p => ⟨ptrAdd_eq_masks a p, ptrAdd_toNat a p⟩

/-! ## The two forms of `+AR1` (R131, R132) -/

/-- A pointer operand of any width is structurally valid; the handler takes the 32-bit one alone. -/
theorem decode_ptrOperand (w : Width) (lit : Word32) :
    decode (encodeOperand 0x01#8 (some ⟨.ptr, w, lit⟩)) =
      if w = .w32 then .ok (.plusAr1P lit) else .error .widthError := by
  unfold decode
  rw [parseWord_encodeOperand _ _ rfl]
  cases w <;> rfl

theorem encode_plusAr1P (lit : Word32) : encode (.plusAr1P lit) = 0x0123#16 ++ lit := by
  have codes : 0x01#8 ++ 0x2#4 ++ 0x3#4 = 0x0123#16 := by decide
  exact congrArg (fun c : BitVec 16 => c ++ lit) codes

theorem decode_plusAr1P (lit : Word32) : decode (0x0123#16 ++ lit) = .ok (.plusAr1P lit) := by
  rw [← encode_plusAr1P]
  exact decode_ptrOperand .w32 lit

/-- The three width codes below that of 32 bits. -/
theorem encodeWidth_of_lt_three {d : BitVec 4} (h : d.toNat < 3) : ∃ w, w ≠ Width.w32 ∧ encodeWidth w = d := by
  have codes : ∀ d : BitVec 4, d.toNat < 3 → d = 0#4 ∨ d = 1#4 ∨ d = 2#4 := by decide
  rcases codes d h with rfl | rfl | rfl
  · exact ⟨.w1, by decide, rfl⟩
  · exact ⟨.w8, by decide, rfl⟩
  · exact ⟨.w16, by decide, rfl⟩

/-- Decode check 4 on `+AR1 P#…` with a pointer of 1, 8 or 16 bits. -/
theorem decode_narrowPtr {d : BitVec 4} (h : d.toNat < 3) (lit : Word32) :
    decode (0x01#8 ++ 0x2#4 ++ d ++ lit) = .error .widthError := by
  obtain ⟨w, hw, rfl⟩ := encodeWidth_of_lt_three h
  exact (decode_ptrOperand w lit).trans (if_neg hw)

/-- An instruction step on a word the decoder rejects (R142). -/
theorem stepWord_of_reject {w : InstrWord} {r : DecodeReject} (h : decode w = .error r) (s : State) :
    stepWord w s = rejectOutcome r := by
  rw [stepWord, h]

/-- The whole effect of the increment by a pointer's offset. -/
theorem State.incrementAr1_ptrOffset (s : State) (b : Word32) :
    s.incrementAr1 (ptrOffset b) =
      { s with cpu :=
        { s.cpu with ar1 :=
            (s.cpu.ar1 &&& 0xFF000000#32) |||
              (((s.cpu.ar1 &&& 0x00FFFFFF#32) + (b &&& 0x00FFFFFF#32)) &&& 0x00FFFFFF#32) } } := by
  rw [← ptrAdd_ptrOffset]
  rfl

/-- R132: the increment is the offset of `ACCU[1]`. -/
theorem exec_plusAr1 (s : State) : exec .plusAr1 s = .next (s.incrementAr1 (ptrOffset s.cpu.accu1)) := by
  show Host.Outcome.next (s.incrementAr1 (ptrOffset (s.getAccu .accu1 .w32))) = _
  rw [State.getAccu_w32]
  rfl

/-- R131: the increment is the offset of the literal. -/
theorem exec_plusAr1P (lit : Word32) (s : State) :
    exec (.plusAr1P lit) s = .next (s.incrementAr1 (ptrOffset lit)) := by
  show Host.Outcome.next (s.incrementAr1 (ptrOffset ((ptrOffset lit).setWidth 32))) = _
  rw [ptrOffset_setWidth]

/-- Settles O3: the word is that of a 32-bit pointer operand, which alone of the four widths is accepted, and the
effect is the increment by the literal's offset. -/
theorem plusAr1PIncrementsByLiteral : Obligations.PlusAr1PIncrementsByLiteral := by
  intro lit s
  refine ⟨encode_plusAr1P lit, decode_plusAr1P lit, ?_, fun d hd => ?_⟩
  · rw [exec_plusAr1P, State.incrementAr1_ptrOffset]
  · have hdec := decode_narrowPtr hd lit
    exact ⟨hdec, stepWord_of_reject hdec s⟩

/-- Settles O4: the effect is the increment by the offset of `ACCU[1]`. -/
theorem plusAr1IncrementsByAccu1 : Obligations.PlusAr1IncrementsByAccu1 := by
  intro s
  refine ⟨rfl, rfl, ?_⟩
  rw [exec_plusAr1, State.incrementAr1_ptrOffset]

end Sys2Proof.Machine
end

section
/-! PROOFS. A turn of the RUN loop (R145 to R149): what it answers for each outcome of the instruction step and at a
cancel request, and the four ways in which a RUN ends. -/

namespace Sys2Proof.Machine

/-- R149: below the end of the program, a cancel request that is up stops the RUN. -/
theorem runTurn_cancelled {s : State} (h : s.pc.toNat < s.prog.length) :
    s.runTurn (some 0) = .next (s.finish (.ok s.pc)) := by
  unfold State.runTurn State.fetch
  rw [List.getElem?_eq_getElem h]
  rfl

section
variable {s : State} {c : Option Nat} {w : InstrWord} (hw : s.prog[s.pc.toNat]? = some w) (hc : c ≠ some 0)
include hw hc

/-- R145: after an instruction that ran, the RUN goes on. -/
theorem runTurn_of_next {t : State} (h : stepWord w s = .next t) : s.runTurn c = .next (t.advance c) := by
  rw [runTurn_executes hw hc, h]
  rfl

/-- R148: a fault stops the RUN. -/
theorem runTurn_of_fault {f : Fault} (h : stepWord w s = .fault f) :
    s.runTurn c = .next (s.finish (.fault f s.pc)) := by
  rw [runTurn_executes hw hc, h]
  rfl

/-- R145: a defect stops the RUN. -/
theorem runTurn_of_defect (h : stepWord w s = .refused .structuralDefect) :
    s.runTurn c = .next (s.finish (.defect s.pc)) := by
  rw [runTurn_executes hw hc, h]
  rfl

end

/-- Settles O29: the loop looks at the end of the program, at the cancel request and at the outcome of the
instruction step in this order, and only after an instruction that ran is the RUN still in progress. -/
theorem runEndsInFourWays : Obligations.RunEndsInFourWays := by
  constructor
  · intro s t c hinv hrun hstep hidle
    rw [step_running hrun] at hstep
    rcases hinv.pcInRange.eq_or_lt with hend | hlt
    · rw [runTurn_ends c hend.ge] at hstep
      cases hstep
      exact ⟨rfl, .inl ⟨hend, by rw [← hend, BitVec.ofNat_toNat, BitVec.setWidth_eq]; rfl⟩⟩
    · by_cases hc : c = some 0
      · rw [hc, runTurn_cancelled hlt] at hstep
        cases hstep
        exact ⟨rfl, .inr (.inl ⟨hlt, hc, rfl⟩)⟩
      · have hw := List.getElem?_eq_getElem hlt
        rcases stepWord_cases s.prog[s.pc.toNat] s with ⟨_, p, _, hout⟩ | ⟨f, hout, _⟩ | ⟨_, hout⟩
        · rw [runTurn_of_next hw hc hout] at hstep
          cases hstep
          cases hidle
        · rw [runTurn_of_fault hw hc hout] at hstep
          cases hstep
          exact ⟨rfl, .inr (.inr (.inl ⟨hlt, hc, _, f, hw, hout, rfl⟩))⟩
        · rw [runTurn_of_defect hw hc hout] at hstep
          cases hstep
          exact ⟨rfl, .inr (.inr (.inr ⟨hlt, hc, _, hw, hout, rfl⟩))⟩
  · intro s c hprog hpc hrun
    rw [step_running hrun, runTurn_ends c (by simp [hprog]), State.finish, hpc]

end Sys2Proof.Machine
end

section
/-! PROOFS. Taking a fault (R169): a fault comes of the word alone, and the sequencer takes it under RUN with the index
`pc` and under STEP with the index 0. -/

namespace Sys2Proof.Machine

/-- Instructions complete, so an instruction step faults only where the decoder rejects the word (R87, R142). -/
theorem stepWord_fault_iff {w : InstrWord} {s : State} {f : Fault} :
    stepWord w s = .fault f ↔ ∃ r, decode w = .error r ∧ rejectOutcome r = .fault f := by
  constructor
  · intro h
    cases hdec : decode w with
    | ok i =>
      obtain ⟨p, hp⟩ := exec_increments i s
      rw [stepWord, hdec] at h
      cases hp.symm.trans h
    | error r => exact ⟨r, rfl, (stepWord_of_reject hdec s).symm.trans h⟩
  · rintro ⟨r, hdec, hr⟩
    exact (stepWord_of_reject hdec s).trans hr

/-- A word that faults in one state faults in every state. -/
theorem stepWord_fault_any_state {w : InstrWord} {s : State} {f : Fault} (h : stepWord w s = .fault f)
    (s' : State) : stepWord w s' = .fault f :=
  stepWord_fault_iff.2 (stepWord_fault_iff.1 h)

/-- R144: a fault ends the STEP command, with the index 0. -/
theorem stepCommand_of_fault {s : State} {w : InstrWord} {f : Fault} (h : stepWord w s = .fault f) :
    s.stepCommand w = .next (s.takeFault f 0#32) := by
  rw [State.stepCommand, h]
  rfl

/-- Settles O31: a turn of the RUN and the STEP command both take the fault in the state they began in. The STEP command
begins after it left the pending list, which does not change the fault. -/
theorem faultEntry : Obligations.FaultEntry := by
  constructor
  · intro s c w f hrun hw hc hfault
    rw [step_running hrun, runTurn_of_fault hw hc hfault]
    rfl
  · intro s w rest f hidle hpending hloaded hfault
    rw [step_takes_step hidle hpending hloaded, stepCommand_of_fault (stepWord_fault_any_state hfault _)]
    rfl

end Sys2Proof.Machine
end

section
/-! PROOFS. Encoding and decoding (R81 to R88, R94): the two directions of the round trip, structural validity in the
words of SV1 to SV5, the outcome of decoding and of the instruction step on every word, and the assembler's literals. -/

namespace Sys2Proof.Machine

/-! ## The round trips -/

/-- The operands of an `Instr` are the fields of its word, so every one is well formed. -/
theorem instr_wellFormed (i : Instr) : i.wellFormed = true := by
  cases i <;> rfl

theorem decode_encode (i : Instr) : decode (encode i) = .ok i := by
  cases i with
  | plusAr1 => rfl
  | plusAr1P lit => exact decode_ptrOperand .w32 lit

/-- The check of decoding that an instruction passes last leaves one operand, and with it one word. -/
theorem encode_of_decode {w : InstrWord} {i : Instr} (h : decode w = .ok i) : encode i = w := by
  rcases decode_cases w with ⟨_, hd⟩ | ⟨_, _, _, _, hd⟩ | ⟨hp, hd⟩ | ⟨op, hp, hk, hw, hd⟩ | ⟨_, _, _, _, hd⟩ |
    ⟨_, _, _, hd⟩ <;> rw [hd] at h <;> cases h
  case inr.inr.inl => exact (encodeOperand_of_parseWord hp).1
  case inr.inr.inr.inl =>
    obtain ⟨kind, width, lit⟩ := op
    cases hk
    cases hw
    exact (encodeOperand_of_parseWord hp).1

/-- Settles O7: an instruction's word parses to its operand, and each accepted operand is the one of its instruction. -/
theorem decodeAndEncodeAgree : Obligations.DecodeAndEncodeAgree :=
  ⟨fun i _ => decode_encode i, fun _ i h => ⟨instr_wellFormed i, encode_of_decode h⟩⟩

/-- Settles O10: by the two directions of the parser's round trip. -/
theorem operandFormsRoundTrip : Obligations.OperandFormsRoundTrip :=
  ⟨parseWord_encodeOperand, fun _ _ _ => encodeOperand_of_parseWord⟩

/-- Settles O9: each word is evaluated. -/
theorem sampleWordsDecode : Obligations.SampleWordsDecode :=
  ⟨rfl, rfl, rfl, rfl, rfl, rfl, rfl, rfl⟩

/-! ## Structural validity in the words of R86 -/

theorem shiftRight_eq_zero_iff (p : Word32) (n : Nat) : p >>> n = 0#32 ↔ p.toNat < 2 ^ n := by
  rw [← BitVec.toNat_inj, BitVec.toNat_ushiftRight, Nat.shiftRight_eq_div_pow, BitVec.toNat_ofNat, Nat.zero_mod,
    Nat.div_eq_zero_iff_lt (Nat.two_pow_pos n)]

theorem ptrArea_eq_zero_iff (p : Word32) : ptrArea p = 0#8 ↔ p.toNat < 2 ^ 24 := by
  rw [← BitVec.toNat_inj, ptrArea_toNat, BitVec.toNat_ofNat, Nat.zero_mod,
    Nat.div_eq_zero_iff_lt (Nat.two_pow_pos 24)]

/-- SV1: a kind code is not reserved exactly when it is at most 4. -/
theorem decodeKind_eq_none_iff {k : BitVec 4} : decodeKind k = none ↔ ¬ k.toNat ≤ 4 := by
  revert k
  decide

/-- SV2: a width code is not reserved exactly when it is at most 3. -/
theorem decodeWidth_eq_none_iff {d : BitVec 4} : decodeWidth d = none ↔ ¬ d.toNat ≤ 3 := by
  revert d
  decide

/-- The width of R84 by its code, as SV4 writes it out. -/
theorem two_pow_width_bits (wd : Width) :
    2 ^ wd.bits =
      if (encodeWidth wd).toNat = 0 then 2 ^ 1
      else if (encodeWidth wd).toNat = 1 then 2 ^ 8
      else if (encodeWidth wd).toNat = 2 then 2 ^ 16 else 2 ^ 32 := by
  cases wd <;> rfl

/-- SV3 to SV5 of a word whose two codes are not reserved. -/
theorem validWord_iff_payloadValid {w : InstrWord} {kind : Option OperandKind} {wd : Width}
    (hk : encodeKind kind = wordKind w) (hw : encodeWidth wd = wordWid w) :
    ValidWord w ↔ payloadValid kind wd (wordPayload w) = true := by
  unfold ValidWord
  rw [← hk, ← hw, ← two_pow_width_bits]
  have hwid : (encodeWidth wd).toNat ≤ 3 := by cases wd <;> decide
  rcases kind with _ | _ | _ | n
  · cases wd <;> simp [encodeKind, encodeWidth, payloadValid, ← BitVec.toNat_inj]
  · simp [encodeKind, payloadValid, hwid, shiftRight_eq_zero_iff]
  · simp [encodeKind, payloadValid, hwid]
  · have hoff := ptrArea_eq_zero_iff (wordPayload w)
    unfold ptrArea at hoff
    cases n <;> simp [encodeKind, payloadValid, hwid, hoff]

/-- R86: a word parses exactly when it satisfies SV1 to SV5. -/
theorem parseWord_eq_none_iff {w : InstrWord} : parseWord w = none ↔ ¬ ValidWord w := by
  unfold parseWord
  cases hk : decodeKind (wordKind w) with
  | none => exact iff_of_true rfl fun hv => decodeKind_eq_none_iff.1 hk hv.1
  | some kind =>
    cases hw : decodeWidth (wordWid w) with
    | none => exact iff_of_true rfl fun hv => decodeWidth_eq_none_iff.1 hw hv.2.1
    | some wd =>
      rw [validWord_iff_payloadValid (encodeKind_decodeKind hk) (encodeWidth_decodeWidth hw)]
      simp

theorem validWord_of_parseWord {w : InstrWord} {x : Byte × Option Operand} (h : parseWord w = some x) :
    ValidWord w := by
  by_contra hv
  rw [parseWord_eq_none_iff.2 hv] at h
  cases h

/-! ## The outcome on every word (R87, R142) -/

/-- Settles O8: each answer of the decoder is that of one class of words, read off the fields of the word parsed. -/
theorem decodePartition : Obligations.DecodePartition := by
  intro w
  rcases decode_cases w with ⟨hp, hd⟩ | ⟨opc, o, hp, hopc, hd⟩ | ⟨hp, hd⟩ | ⟨⟨kind, wd, lit⟩, hp, hk, hw, hd⟩ |
    ⟨⟨kind, wd, lit⟩, hp, hk, hw, hd⟩ | ⟨⟨kind, wd, lit⟩, hp, hk, hd⟩ <;> rw [hd]
  · rw [if_pos (parseWord_eq_none_iff.1 hp)]
  all_goals
    rw [if_neg (not_not.2 (validWord_of_parseWord hp))]
    obtain ⟨rfl, -⟩ := encodeOperand_of_parseWord hp
  · have hne : opc.toNat ≠ 1 := fun e => hopc (BitVec.eq_of_toNat_eq e)
    cases o <;> simp [encodeOperand, hne]
  · simp [encodeOperand]
  · cases hk
    cases hw
    simp [encodeOperand, encodeKind, encodeWidth]
  · cases hk
    cases wd with
    | w32 => exact absurd rfl hw
    | w1 | w8 | w16 => simp [encodeOperand, encodeKind, encodeWidth]
  · rcases kind with _ | _ | n
    · simp [encodeOperand, encodeKind]
    · exact absurd rfl hk
    · cases n <;> simp [encodeOperand, encodeKind]

theorem stepWord_of_ok {w : InstrWord} {i : Instr} (h : decode w = .ok i) (s : State) :
    stepWord w s = exec i s := by
  rw [stepWord, h]

/-- Settles O50: on each class of words the instruction step answers what the outcome of decoding asks for. -/
theorem stepWordOutcomes : Obligations.StepWordOutcomes := by
  intro w s
  rw [stepWord, decodePartition w]
  split_ifs <;> rfl

/-! ## The assembler (R94) -/

/-- Two bit vectors joined are a sum of numbers. -/
theorem toNat_append_eq_add {n m : Nat} (x : BitVec n) (y : BitVec m) :
    (x ++ y).toNat = x.toNat * 2 ^ m + y.toNat := by
  rw [BitVec.toNat_append, ← Nat.shiftLeft_add_eq_or_of_lt y.isLt, Nat.shiftLeft_eq]

/-- A pointer's area byte, byte number and bit number put together. -/
theorem toNat_append_byte_bit (code : Byte) (byte : BitVec 21) (bit : BitVec 3) :
    (code ++ byte ++ bit).toNat = code.toNat * 2 ^ 24 + (byte.toNat * 8 + bit.toNat) := by
  rw [toNat_append_eq_add, toNat_append_eq_add]
  omega

/-- Settles O11: the fields of a literal and of a word stand at powers of two. -/
theorem assemblerLiterals : Obligations.AssemblerLiterals := by
  intro codes byte bit a p w
  refine ⟨?_, toNat_append_byte_bit _ byte bit, ?_, rfl, rfl⟩
  · have h := toNat_append_byte_bit 0#8 byte bit
    rwa [BitVec.toNat_ofNat, Nat.zero_mod, Nat.zero_mul, Nat.zero_add] at h
  · show (encode (.plusAr1P p)).toNat = _
    rw [encode_plusAr1P]
    exact toNat_append_eq_add _ p

end Sys2Proof.Machine
end

section
/-! PROOFS. The formats of the registers: the low bits of an accumulator (R22), the status word on the host port (R29)
and the 38 bits of RESULT (R33, R160). -/

namespace Sys2Proof.Machine

/-! ## Accumulators (R22) -/

theorem State.getAccu_toNat (s : State) (n : AccuNum) (w : AccuWidth) :
    (s.getAccu n w).toNat = (s.cpu.accu n).toNat % 2 ^ w.bits := by
  rw [State.getAccu, BitVec.extractLsb'_toNat, Nat.shiftRight_zero]

/-- A write is read back at its width. -/
theorem State.getAccu_setAccu (s : State) (n : AccuNum) (w : AccuWidth) (v : BitVec w.bits) :
    (s.setAccu n w v).getAccu n w = v := by
  apply BitVec.eq_of_getLsbD_eq
  intro k hk
  rw [State.getAccu, BitVec.getLsbD_extractLsb', Nat.zero_add, State.setAccu_getLsbD, if_pos hk,
    decide_eq_true hk, Bool.true_and]

/-- Settles O13: the low bits are a remainder, and the bits written are the low bits. -/
theorem getAccuLowBits : Obligations.GetAccuLowBits :=
  fun s n w v => ⟨s.getAccu_toNat n w, s.getAccu_setAccu n w v⟩

/-! ## The status word (R29) -/

theorem StatusWord.ext_get {x y : StatusWord} (h : ∀ f, x.get f = y.get f) : x = y := by
  have hCC0 := h .CC0; have hCC1 := h .CC1; have hOV := h .OV; have hOS := h .OS; have hOR := h .OR
  have hSTA := h .STA; have hRLO := h .RLO; have hFC := h .FC; have hBIE := h .BIE
  cases x; cases y
  simp only [StatusWord.get] at *
  subst_vars; rfl

/-- Each of the low nine bits is a flag's. -/
theorem exists_flagBit {k : Nat} (h : k < 9) : ∃ f, flagBit f = k := by
  interval_cases k
  exacts [⟨.FC, rfl⟩, ⟨.RLO, rfl⟩, ⟨.STA, rfl⟩, ⟨.OR, rfl⟩, ⟨.OS, rfl⟩, ⟨.OV, rfl⟩, ⟨.CC0, rfl⟩, ⟨.CC1, rfl⟩,
    ⟨.BIE, rfl⟩]

/-- A packed status word has each flag at its position. -/
@[simp] theorem StatusWord.pack_flagBit (x : StatusWord) (f : Flag) : x.pack.getLsbD (flagBit f) = x.get f := by
  rw [StatusWord.pack, BitVec.getLsbD_setWidth, StatusWord.bits, BitVec.getLsbD_append]
  cases f <;> simp only [BitVec.getLsbD_append] <;> simp [flagBit, StatusWord.get]

/-- Bits [15:9] of a packed status word read as zero. -/
theorem StatusWord.pack_high (x : StatusWord) {k : Nat} (h : 9 ≤ k) : x.pack.getLsbD k = false := by
  rw [StatusWord.pack, BitVec.getLsbD_setWidth, BitVec.getLsbD_of_ge x.bits k h, Bool.and_false]

/-- Unpacking reads each flag at its position. -/
@[simp] theorem StatusWord.unpack_get (v : BitVec 16) (f : Flag) :
    (StatusWord.unpack v).get f = v.getLsbD (flagBit f) := by
  cases f <;> rfl

@[simp] theorem StatusWord.unpack_pack (x : StatusWord) : StatusWord.unpack x.pack = x :=
  StatusWord.ext_get fun f => by rw [StatusWord.unpack_get, StatusWord.pack_flagBit]

/-- The mask that clears bits [15:9]. -/
theorem getLsbD_flagMask {k : Nat} (h : k < 16) : (0x01FF#16).getLsbD k = decide (k < 9) := by
  have all : ∀ k < 16, (0x01FF#16).getLsbD k = decide (k < 9) := by decide
  exact all k h

/-- Only bits [15:9] are lost through the flags. -/
@[simp] theorem StatusWord.pack_unpack (v : BitVec 16) : (StatusWord.unpack v).pack = v &&& 0x01FF#16 := by
  apply BitVec.eq_of_getLsbD_eq
  intro k hk
  rw [BitVec.getLsbD_and, getLsbD_flagMask hk]
  by_cases h : k < 9
  · obtain ⟨f, rfl⟩ := exists_flagBit h
    simp [h]
  · simp [h, StatusWord.pack_high _ (Nat.not_lt.1 h)]

/-- Settles O16: both directions are settled flag by flag, and above the flags by the zeros of the packed word. -/
theorem statusWordPacking : Obligations.StatusWordPacking := fun x v =>
  ⟨x.pack_flagBit, fun _ => x.pack_high, StatusWord.unpack_get v, x.unpack_pack, StatusWord.pack_unpack v,
    rfl, rfl, rfl, rfl, rfl, rfl, rfl, rfl, rfl⟩

/-! ## RESULT (R33, R160) -/

theorem Report.pack_ok_toNat (i : Word32) : (Report.ok i).pack.toNat = i.toNat := by
  simp only [Report.pack, toNat_append_eq_add, BitVec.toNat_ofNat]
  omega

theorem Report.pack_fault_toNat (f : Fault) (i : Word32) :
    (Report.fault f i).pack.toNat = 2 ^ 36 + f.code.toNat * 2 ^ 32 + i.toNat := by
  simp only [Report.pack, toNat_append_eq_add, BitVec.toNat_ofNat]
  omega

theorem Report.pack_defect_toNat (i : Word32) : (Report.defect i).pack.toNat = 2 * 2 ^ 36 + i.toNat := by
  simp only [Report.pack, toNat_append_eq_add, BitVec.toNat_ofNat]
  omega

theorem Fault.code_injective {f g : Fault} (h : f.code.toNat = g.code.toNat) : f = g := by
  revert h
  cases f <;> cases g <;> decide

/-- The status of a report, the field at bits [37:36] (R33). -/
def Report.status : Report → Nat
  | .ok _      => 0
  | .fault _ _ => 1
  | .defect _  => 2

theorem Report.pack_toNat_div (r : Report) : r.pack.toNat / 2 ^ 36 = r.status := by
  cases r with
  | ok i => have hi := i.isLt; rw [Report.pack_ok_toNat, Report.status]; omega
  | fault f i =>
    have hi := i.isLt
    have hf : f.code.toNat < 16 := f.code.isLt
    rw [Report.pack_fault_toNat, Report.status]
    omega
  | defect i => have hi := i.isLt; rw [Report.pack_defect_toNat, Report.status]; omega

/-- The three fields do not overlap, so a report can be read off its 38 bits: first the status, then the rest. -/
theorem Report.pack_injective {r q : Report} (h : r.pack = q.pack) : r = q := by
  have hnat := congrArg BitVec.toNat h
  have hstatus : r.status = q.status := by rw [← r.pack_toNat_div, ← q.pack_toNat_div, h]
  rcases r with i | ⟨f, i⟩ | i <;> rcases q with j | ⟨g, j⟩ | j <;> cases hstatus
  · rw [Report.pack_ok_toNat, Report.pack_ok_toNat] at hnat
    rw [BitVec.eq_of_toNat_eq hnat]
  · have hi := i.isLt
    have hj := j.isLt
    rw [Report.pack_fault_toNat, Report.pack_fault_toNat] at hnat
    have hcode : f.code.toNat = g.code.toNat := by omega
    have hindex : i.toNat = j.toNat := by omega
    rw [Fault.code_injective hcode, BitVec.eq_of_toNat_eq hindex]
  · rw [Report.pack_defect_toNat, Report.pack_defect_toNat] at hnat
    rw [BitVec.eq_of_toNat_eq (Nat.add_left_cancel hnat)]

/-- Settles O17: the three fields as numbers, and the numbers tell the reports apart. -/
theorem reportFields : Obligations.ReportFields :=
  ⟨fun i => ⟨Report.pack_ok_toNat i, fun f => Report.pack_fault_toNat f i, Report.pack_defect_toNat i⟩,
    ⟨rfl, rfl, rfl, rfl, rfl⟩, fun _ _ => Report.pack_injective⟩

end Sys2Proof.Machine
end

section
/-! PROOFS. The algebra of the pointer increment (R135), the signed reading of its operand (C1), and the frame of the
two instructions. -/

namespace Sys2Proof.Machine

/-! ## The parts of a pointer after an increment -/

/-- A pointer is its area byte and its offset. -/
@[simp] theorem ptrArea_append_ptrOffset (a : Word32) : ptrArea a ++ ptrOffset a = a := by
  apply BitVec.eq_of_toNat_eq
  rw [toNat_append_offset, ptrArea_toNat, ptrOffset_toNat]
  omega

@[simp] theorem ptrArea_ptrAdd (a : Word32) (p : Offset) : ptrArea (ptrAdd a p) = ptrArea a :=
  ptrArea_append _ _

@[simp] theorem ptrOffset_ptrAdd (a : Word32) (p : Offset) : ptrOffset (ptrAdd a p) = ptrOffset a + p :=
  ptrOffset_append _ _

@[simp] theorem ptrAdd_zero (a : Word32) : ptrAdd a 0#24 = a := by
  rw [ptrAdd, BitVec.add_zero, ptrArea_append_ptrOffset]

/-- Two increments are one by their sum. -/
theorem ptrAdd_ptrAdd (a : Word32) (p q : Offset) : ptrAdd (ptrAdd a p) q = ptrAdd a (p + q) := by
  rw [ptrAdd, ptrArea_ptrAdd, ptrOffset_ptrAdd, BitVec.add_assoc, ← ptrAdd]

/-- An increment is undone by its negative. -/
theorem ptrAdd_ptrAdd_neg (a : Word32) (p : Offset) : ptrAdd (ptrAdd a p) (0#24 - p) = a := by
  have hsum : p + (0#24 - p) = 0#24 := by rw [BitVec.zero_sub, BitVec.add_right_neg]
  rw [ptrAdd_ptrAdd, hsum, ptrAdd_zero]

/-- Settles O2: the offsets form a group under addition, and the area byte is copied through. -/
theorem ptrAddAlgebra : Obligations.PtrAddAlgebra := fun a p q =>
  ⟨ptrArea_ptrAdd a p, ptrAdd_zero a, ptrAdd_ptrAdd a p q, ptrAdd_ptrAdd_neg a p, ptrOffset_ptrAdd a p⟩

/-! ## The two instructions -/

/-- The signed and the unsigned reading of an offset differ by a multiple of 2^24. -/
theorem offset_toInt_emod (p : Offset) : p.toInt % 2 ^ 24 = (p.toNat : Int) := by
  have hp := p.isLt
  rw [BitVec.toInt_eq_toNat_cond]
  split <;> omega

/-- Settles O5: modulo 2^24 both readings of the increment add the same. -/
theorem signedReadingImmaterial : Obligations.SignedReadingImmaterial := by
  intro s
  have hsigned : (s.cpu.accu1.extractLsb' 0 24).toInt % 2 ^ 24 = ((ptrOffset s.cpu.accu1).toNat : Int) :=
    offset_toInt_emod _
  have hsum := ptrAdd_toNat s.cpu.ar1 (ptrOffset s.cpu.accu1)
  refine ⟨_, exec_plusAr1 s, ?_, ?_⟩ <;> rw [State.incrementAr1_cpu] <;> simp only <;> omega

/-- Settles O6: every instruction is an increment of `AR[1]`, which keeps its area byte. -/
theorem instructionFrame : Obligations.InstructionFrame := by
  intro i s t h
  obtain ⟨p, hp⟩ := exec_increments i s
  cases hp.symm.trans h
  exact ⟨s.cpu.setAr_accu .ar1 _, rfl, ptrArea_ptrAdd _ p, s.getFlag_incrementAr1 p, fun _ _ => rfl,
    fun _ _ _ _ => rfl, rfl, rfl, rfl, rfl, rfl, rfl, rfl, rfl, rfl⟩

end Sys2Proof.Machine
end

section
/-! PROOFS. The memory-area store (R52 to R56, R60): the bounds check, the value of a read, reading after a write, the
frame of a write, the invariant, and the area of a code. -/

namespace Sys2Proof.Machine

/-! ## The bounds check (R54) -/

theorem accessBytes_eq_max (w : Width) : accessBytes w = max 1 (w.bits / 8) := by
  cases w <;> rfl

section
variable {s : State} {a : Area} {o : Nat} {b : BitVec 3} {w : Width}

theorem memRead_error_iff : s.memRead a o b w = .error .areaBoundaryError ↔ s.size.get a < o + accessBytes w := by
  rcases Nat.lt_or_ge (s.size.get a) (o + accessBytes w) with h | h
  · exact iff_of_true (memRead_outside h) h
  · rw [memRead_ok h]
    exact iff_of_false nofun (Nat.not_lt.2 h)

theorem memWrite_error_iff {v : BitVec w.bits} :
    s.memWrite a o b w v = .error .areaBoundaryError ↔ s.size.get a < o + accessBytes w := by
  rcases Nat.lt_or_ge (s.size.get a) (o + accessBytes w) with h | h
  · exact iff_of_true (memWrite_outside h) h
  · rw [memWrite_ok h]
    exact iff_of_false nofun (Nat.not_lt.2 h)

/-- What a write that completes has found and done. -/
theorem memWrite_inversion {t : State} {v : BitVec w.bits} (h : s.memWrite a o b w v = .ok t) :
    o + accessBytes w ≤ s.size.get a ∧ t = { s with mem := s.mem.set a (writeBits (s.mem.get a) o b w v) } := by
  rcases Nat.lt_or_ge (s.size.get a) (o + accessBytes w) with hlt | hle
  · rw [memWrite_outside hlt] at h
    cases h
  · rw [memWrite_ok hle] at h
    cases h
    exact ⟨hle, rfl⟩

end

/-- Settles O19: the check compares the end of the access with the size, and nothing else can fail. -/
theorem areaBoundsChecked : Obligations.AreaBoundsChecked := by
  intro s a o b w v
  rw [← accessBytes_eq_max]
  refine ⟨memRead_error_iff, memWrite_error_iff, fun h => ?_, fun h => ?_⟩
  · rw [ne_eq, memRead_error_iff, not_lt] at h
    exact ⟨_, memRead_ok h⟩
  · rw [ne_eq, memWrite_error_iff, not_lt] at h
    exact ⟨_, memWrite_ok h⟩

/-! ## The value of a read (R52, R55, R56) -/

/-- One bit taken out of a byte. -/
theorem extractLsb'_ushiftRight_one (x : Byte) (k : Nat) :
    (x >>> k).extractLsb' 0 1 = BitVec.ofBool (x.getLsbD k) := by
  apply BitVec.eq_of_getLsbD_eq
  intro i hi
  obtain rfl : i = 0 := by omega
  simp

/-- Settles O18: each width joins its bytes, the one at the lowest offset at the top. -/
theorem memReadValue : Obligations.MemReadValue := by
  intro s a o b
  refine ⟨fun h => ⟨?_, memRead_ok h⟩, fun h => ⟨_, memRead_ok h, ?_⟩, fun h => ⟨_, memRead_ok h, ?_⟩⟩
  · rw [memRead_ok h, ← extractLsb'_ushiftRight_one]
    rfl
  · exact toNat_append_eq_add _ _
  · simp only [readBits, toNat_append_eq_add]
    omega

/-! ## Reading after a write (R53) -/

/-- A write of one bit replaces it in the byte (R55). -/
theorem putBit_getLsbD (old : Byte) (b : BitVec 3) (v : BitVec 1) {k : Nat} (hk : k < 8) :
    (putBit old b v).getLsbD k = if k = b.toNat then v.getLsbD 0 else old.getLsbD k := by
  rw [putBit, BitVec.getLsbD_or, BitVec.getLsbD_and, BitVec.getLsbD_not, BitVec.getLsbD_shiftLeft,
    BitVec.getLsbD_shiftLeft, BitVec.getLsbD_setWidth]
  rcases Nat.lt_trichotomy k b.toNat with h | h | h
  · simp [hk, h, h.ne]
  · simp [h, b.isLt]
  · have hsub : 1 ≤ k - b.toNat := by omega
    simp [hk, h.ne', Nat.not_lt.2 h.le, BitVec.getLsbD_of_ge v _ hsub, (Nat.sub_pos_of_lt h).ne']

/-- What a write of any width puts into an area is what a read of the same place takes out. -/
theorem readBits_writeBits (m : List Host.Cell) (o : Nat) (b : BitVec 3) (w : Width) (v : BitVec w.bits) :
    readBits (writeBits m o b w v) o b w = v := by
  cases w with
  | w1 =>
    have hb : b.toNat < 8 := b.isLt
    rw [readBits, writeBits, readByte_writeByte_same, extractLsb'_ushiftRight_one, putBit_getLsbD _ _ _ hb,
      if_pos rfl]
    apply BitVec.eq_of_getLsbD_eq
    intro i hi
    obtain rfl : i = 0 := by omega
    simp
  | w8 => exact readByte_writeByte_same m o v
  | w16 =>
    simp only [readBits, writeBits, readByte_writeByte_same,
      readByte_writeByte_other _ _ (show o ≠ o + 1 by omega)]
    apply BitVec.eq_of_toNat_eq
    have hv : v.toNat < 2 ^ 16 := v.isLt
    simp only [toNat_append_eq_add, BitVec.extractLsb'_toNat, Nat.shiftRight_eq_div_pow]
    omega
  | w32 =>
    simp only [readBits, writeBits, readByte_writeByte_same,
      readByte_writeByte_other _ _ (show o ≠ o + 1 by omega), readByte_writeByte_other _ _ (show o ≠ o + 2 by omega),
      readByte_writeByte_other _ _ (show o ≠ o + 3 by omega),
      readByte_writeByte_other _ _ (show o + 1 ≠ o + 2 by omega),
      readByte_writeByte_other _ _ (show o + 1 ≠ o + 3 by omega),
      readByte_writeByte_other _ _ (show o + 2 ≠ o + 3 by omega)]
    apply BitVec.eq_of_toNat_eq
    have hv : v.toNat < 2 ^ 32 := v.isLt
    simp only [toNat_append_eq_add, BitVec.extractLsb'_toNat, Nat.shiftRight_eq_div_pow]
    omega

/-- Settles O20: the write passes the bounds check, so the read does, and it takes out what was put in. -/
theorem readAfterWrite : Obligations.ReadAfterWrite := by
  intro s a o b w v h
  rw [← accessBytes_eq_max] at h
  refine ⟨_, memWrite_ok h, ?_⟩
  rw [memRead_ok, PerArea.get_set_same, readBits_writeBits]
  exact h

/-- Settles O21: the write replaces one area's content, inside it the bytes of the access, and for one bit the bit. -/
theorem memWriteFrame : Obligations.MemWriteFrame := by
  intro s t a o b w v h
  obtain ⟨-, rfl⟩ := memWrite_inversion h
  refine ⟨fun p hp => ?_, fun a' p ha => ?_, fun hw k hk => ?_, rfl⟩
  · rw [← accessBytes_eq_max] at hp
    simp only [PerArea.get_set_same, readByte_writeBits_outside v hp]
  · simp only [PerArea.get_set_other _ _ ha]
  · subst hw
    simp only [PerArea.get_set_same, writeBits, readByte_writeByte_same]
    rcases Nat.lt_or_ge k 8 with h8 | h8
    · rw [putBit_getLsbD _ _ _ h8, if_neg hk]
    · rw [BitVec.getLsbD_of_ge _ _ h8, BitVec.getLsbD_of_ge _ _ h8]

/-! ## The invariant -/

theorem cellsBelow_eraseByte {size : Nat} {m : List Host.Cell} (o : Nat) (hm : cellsBelow size m = true) :
    cellsBelow size (eraseByte m o) = true := by
  rw [cellsBelow, List.all_eq_true] at *
  exact fun c hc => hm c (List.mem_of_mem_filter hc)

theorem cellsBelow_insertCell {size : Nat} {m : List Host.Cell} {o : Nat} (v : Byte) (ho : o < size)
    (hm : cellsBelow size m = true) : cellsBelow size (insertCell m o v) = true := by
  induction m with
  | nil => simp [insertCell, cellsBelow, ho]
  | cons c rest ih =>
    obtain ⟨k, b⟩ := c
    simp only [cellsBelow, List.all_cons, Bool.and_eq_true, decide_eq_true_eq] at hm ih ⊢
    by_cases hlt : o < k
    · simp [insertCell, hlt, ho, hm]
    · simp [insertCell, hlt, hm.1, ih hm.2]

/-- A byte written inside an area stays inside it. -/
theorem cellsBelow_writeByte {size : Nat} {m : List Host.Cell} {o : Nat} (v : Byte) (ho : o < size)
    (hm : cellsBelow size m = true) : cellsBelow size (writeByte m o v) = true := by
  unfold writeByte
  split
  · exact cellsBelow_eraseByte o hm
  · exact cellsBelow_insertCell v ho (cellsBelow_eraseByte o hm)

theorem cellsBelow_writeBits {size : Nat} {m : List Host.Cell} {o : Nat} (b : BitVec 3) {w : Width}
    (v : BitVec w.bits) (ho : o + accessBytes w ≤ size) (hm : cellsBelow size m = true) :
    cellsBelow size (writeBits m o b w v) = true := by
  cases w with
  | w1 => exact cellsBelow_writeByte _ ho hm
  | w8 => exact cellsBelow_writeByte _ ho hm
  | w16 =>
    have hend : o + 2 ≤ size := ho
    exact cellsBelow_writeByte _ (by omega) (cellsBelow_writeByte _ (by omega) hm)
  | w32 =>
    have hend : o + 4 ≤ size := ho
    exact cellsBelow_writeByte _ (by omega) (cellsBelow_writeByte _ (by omega)
      (cellsBelow_writeByte _ (by omega) (cellsBelow_writeByte _ (by omega) hm)))

theorem areasLegal_set {size : PerArea Nat} {mem : PerArea (List Host.Cell)} {a : Area} {m : List Host.Cell}
    (h : areasLegal size mem = true) (hm : cellsBelow (size.get a) m = true) :
    areasLegal size (mem.set a m) = true := by
  rw [areasLegal_iff] at *
  intro a'
  by_cases ha : a' = a
  · subst ha
    rw [PerArea.get_set_same]
    exact ⟨(h a').1, hm⟩
  · rw [PerArea.get_set_other _ _ ha]
    exact h a'

/-- Settles O22: the content written keeps its canonical form and, being in bounds, stays inside the area. -/
theorem memWriteKeepsInv : Obligations.MemWriteKeepsInv := by
  intro s t a o b w v hinv h
  have hwf := State.memWrite_wf h hinv.memWf
  obtain ⟨hle, rfl⟩ := memWrite_inversion h
  have hbelow := ((areasLegal_iff.1 hinv.areas) a).2
  exact
    { memWf := hwf
      areas := areasLegal_set hinv.areas (cellsBelow_writeBits b v hle hbelow)
      codes := hinv.codes
      progLen := hinv.progLen
      pcInRange := hinv.pcInRange
      unloaded := hinv.unloaded }

/-! ## The area of a code (R60) -/

theorem areaCodesInjective_iff {codes : PerArea Byte} :
    areaCodesInjective codes = true ↔ ∀ a b, codes.get a = codes.get b → a = b := by
  simp only [areaCodesInjective, Area.all_all, Bool.or_eq_true, bne_iff_ne, decide_eq_true_eq, ← imp_iff_not_or]

/-- The area found has the code. -/
theorem areaCode_of_areaOf {s : State} {c : Byte} {a : Area} (h : s.areaOf c = some a) : s.areaCode.get a = c :=
  beq_iff_eq.1 (List.find?_some (p := fun a => s.areaCode.get a == c) h)

theorem areaOf_eq_none_iff {s : State} {c : Byte} : s.areaOf c = none ↔ ∀ a, s.areaCode.get a ≠ c := by
  simp [State.areaOf, List.find?_eq_none, Area.mem_all]

/-- Settles O23: a search that finds an area finds one with the code, and injectivity leaves no other. -/
theorem areaOfInvertsAreaCode : Obligations.AreaOfInvertsAreaCode := by
  intro s hinj
  refine ⟨fun a => ?_, fun c => areaOf_eq_none_iff.2⟩
  cases h : s.areaOf (s.areaCode.get a) with
  | none => exact absurd rfl (areaOf_eq_none_iff.1 h a)
  | some b => rw [areaCodesInjective_iff.1 hinj b a (areaCode_of_areaOf h)]

end Sys2Proof.Machine
end

section
/-! PROOFS. The operand resolver (R113 to R118): the immediate kinds, and the address-register-relative kind with the
order of its checks and its accesses. -/

namespace Sys2Proof.Machine

/-! ## The immediate kinds (R114, R115) -/

/-- SV4 for the operand: a well-formed immediate fits its width. -/
theorem lit_lt_of_wellFormed {w : Width} {lit : Word32} (h : (⟨.imm, w, lit⟩ : Operand).wellFormed = true) :
    lit.toNat < 2 ^ w.bits :=
  (shiftRight_eq_zero_iff lit w.bits).1 (beq_iff_eq.1 h)

theorem resolve_ptr (s : State) (w : Width) (lit : Word32) :
    s.resolve ⟨.ptr, w, lit⟩ = .ok (.value .w32 (lit &&& 0x00FFFFFF#32)) := by
  show (toPointerValue ⟨.ptr, w, lit⟩).map _ = _
  rw [toPointerValue_ptr]
  rfl

/-- Settles O25: a literal that fits its width is the number of its low bits. -/
theorem resolveImmediates : Obligations.ResolveImmediates := by
  intro s w lit
  refine ⟨fun hwf => ⟨lit.extractLsb' 0 w.bits, rfl, ?_, rfl, fun _ => rfl⟩, resolve_ptr s .w32 lit⟩
  rw [BitVec.extractLsb'_toNat, Nat.shiftRight_zero, Nat.mod_eq_of_lt (lit_lt_of_wellFormed hwf)]

/-! ## The address-register-relative kind (R116, R117) -/

theorem effectiveAddress_toNat (ar lit : Word32) :
    (effectiveAddress ar lit).toNat = (ar.toNat % 2 ^ 24 + lit.toNat % 2 ^ 24) % 2 ^ 24 := by
  rw [effectiveAddress, BitVec.toNat_add, ptrOffset_toNat, ptrOffset_toNat]

theorem offsetByte_toNat (o : Offset) : (offsetByte o).toNat = o.toNat / 8 := by
  have ho := o.isLt
  rw [offsetByte, BitVec.extractLsb'_toNat, Nat.shiftRight_eq_div_pow]
  omega

theorem offsetBit_eq (o : Offset) : offsetBit o = BitVec.ofNat 3 (o.toNat % 8) := by
  apply BitVec.eq_of_toNat_eq
  rw [offsetBit, BitVec.extractLsb'_toNat, BitVec.toNat_ofNat, Nat.shiftRight_zero]
  omega

/-- R117's first check, on the effective address as a number. -/
theorem bitAligned_offsetBit (w : Width) (o : Offset) :
    bitAligned w (offsetBit o) = true ↔ w = .w1 ∨ o.toNat % 8 = 0 := by
  have hbit : offsetBit o = 0#3 ↔ o.toNat % 8 = 0 := by
    rw [offsetBit_eq, ← BitVec.toNat_inj, BitVec.toNat_ofNat, BitVec.toNat_ofNat]
    omega
  cases w <;> simp [bitAligned, hbit]

section
variable {s : State} {n : ArNum} {w : Width} {lit : Word32}

theorem resolve_misaligned (h : ¬ bitAligned w (offsetBit (effectiveAddress (s.getAr n) lit)) = true) :
    s.resolve ⟨.arrel n, w, lit⟩ = .error .unalignedBitOffset :=
  if_neg h

theorem resolve_unmapped (h : bitAligned w (offsetBit (effectiveAddress (s.getAr n) lit)) = true)
    (ha : s.areaOf (ptrArea (s.getAr n)) = none) :
    s.resolve ⟨.arrel n, w, lit⟩ = .error .areaBoundaryError := by
  refine (if_pos h).trans ?_
  rw [ha]

theorem resolve_location {a : Area} (h : bitAligned w (offsetBit (effectiveAddress (s.getAr n) lit)) = true)
    (ha : s.areaOf (ptrArea (s.getAr n)) = some a) :
    s.resolve ⟨.arrel n, w, lit⟩ =
      .ok (.location ⟨a, (offsetByte (effectiveAddress (s.getAr n) lit)).toNat,
        offsetBit (effectiveAddress (s.getAr n) lit), w⟩) := by
  refine (if_pos h).trans ?_
  rw [ha]

end

/-- Settles O26: the checks are made in their order on the effective address, whose parts are a quotient and a
remainder. -/
theorem resolveArRelative : Obligations.ResolveArRelative := by
  intro s n w lit ea code
  have hea : (effectiveAddress (s.getAr n) lit).toNat = ea := effectiveAddress_toNat _ _
  have haligned := bitAligned_offsetBit w (effectiveAddress (s.getAr n) lit)
  rw [hea] at haligned
  refine ⟨fun hw hmod => resolve_misaligned fun h => ?_, fun h hcode => resolve_unmapped (haligned.2 h) hcode,
    fun a h hcode => ⟨?_, rfl, fun _ => rfl⟩⟩
  · rcases haligned.1 h with h1 | h0
    · exact hw h1
    · exact hmod h0
  · rw [resolve_location (haligned.2 h) hcode, offsetByte_toNat, offsetBit_eq, hea]

end Sys2Proof.Machine
end

section
/-! PROOFS. The invariant of the core: reset establishes it, and a turn of the RUN loop and every host command keep it,
one lemma for each kind of change a step makes. -/

namespace Sys2Proof.Machine

/-- Settles O42: the clauses are about closed terms. -/
theorem resetSatisfiesInv : Obligations.ResetSatisfiesInv where
  memWf := State.reset_wf
  areas := by decide
  codes := by decide
  progLen := Nat.zero_le _
  pcInRange := Nat.le_refl 0
  unloaded := fun _ => by decide

/-! ## The changes that keep the invariant -/

/-- R150, R190: before LOAD no RUN is in progress. -/
theorem State.Inv.loaded_of_running {s : State} {c : Option Nat} (h : s.Inv) (hrun : s.activity = .running c) :
    s.loaded = true := by
  cases hl : s.loaded with
  | true => rfl
  | false =>
    have hun := h.unloaded hl
    simp [State.unloaded, hrun] at hun

/-- The invariant does not look at the registers, the commands to come and the last snapshot. -/
theorem State.Inv.withRegisters {s : State} (h : s.Inv) (cpu : CpuState) (pending : List Command)
    (out : Option Snapshot) : State.Inv { s with cpu := cpu, pending := pending, snapshotOut := out } :=
  ⟨h.memWf, h.areas, h.codes, h.progLen, h.pcInRange, h.unloaded⟩

/-- Of the sequencer's registers the invariant of a loaded core bounds `pc` alone (R32). -/
theorem State.Inv.withSequencer {s : State} (h : s.Inv) (hl : s.loaded = true) {pc : Word32}
    (hpc : pc.toNat ≤ s.prog.length) (result : Report) (activity : Activity) :
    State.Inv { s with pc := pc, result := result, activity := activity } :=
  ⟨h.memWf, h.areas, h.codes, h.progLen, hpc, fun hn => absurd (hl.symm.trans hn) nofun⟩

theorem State.Inv.incrementAr1 {s : State} (h : s.Inv) (p : Offset) : (s.incrementAr1 p).Inv :=
  h.withRegisters _ s.pending s.snapshotOut

theorem State.Inv.finish {s : State} (h : s.Inv) (hl : s.loaded = true) (r : Report) : (s.finish r).Inv :=
  h.withSequencer hl h.pcInRange r .idle

theorem State.Inv.advance {s : State} (h : s.Inv) (hl : s.loaded = true) (hlt : s.pc.toNat < s.prog.length)
    (c : Option Nat) : (s.advance c).Inv := by
  refine h.withSequencer hl ?_ s.result _
  calc (s.pc + 1#32).toNat = (s.pc.toNat + 1) % 2 ^ 32 := BitVec.toNat_add ..
    _ ≤ s.pc.toNat + 1 := Nat.mod_le ..
    _ ≤ s.prog.length := hlt

theorem State.Inv.startRun {s : State} (h : s.Inv) (hl : s.loaded = true) (c : Option Nat) : (s.startRun c).Inv :=
  h.withSequencer hl (Nat.zero_le _) s.result (.running c)

/-- Areas made from byte lists of the areas' lengths hold no byte outside them (R50). -/
theorem areasLegal_ofBytes {size : PerArea Nat} {bytes : PerArea (List Byte)}
    (hsize : ∀ a, size.get a ≤ Config.maxAreaSize) (hlen : ∀ a, (bytes.get a).length = size.get a) :
    areasLegal size (PerArea.ofFn fun a => cellsOfBytes 0 (bytes.get a)) = true := by
  rw [areasLegal_iff]
  intro a
  have hbelow := cellsBelow_cellsOfBytes 0 (bytes.get a)
  rw [Nat.zero_add, hlen a] at hbelow
  rw [PerArea.get_ofFn]
  exact ⟨hsize a, hbelow⟩

/-- The host's duties are what LOAD needs to establish the invariant (R154). -/
theorem State.Inv.loadImage {s : State} (h : s.Inv) {l : LoadImage} (hl : l.legal = true) : (s.loadImage l).Inv := by
  obtain ⟨hareas, hprog⟩ := LoadImage.legal_iff.1 hl
  exact
    { memWf := s.loadImage_wf l
      areas := areasLegal_ofBytes (fun a => (hareas a).2) fun a => (hareas a).1
      codes := h.codes
      progLen := hprog
      pcInRange := Nat.zero_le _
      unloaded := nofun }

theorem State.Inv.restore {s : State} (h : s.Inv) (img : Snapshot) : (s.restore img).Inv := by
  rcases restore_cases s img with e | ⟨hfits, e⟩ <;> rw [e]
  · exact h
  · exact
      { memWf := Memory.wf_ofBytes _
        areas := areasLegal_ofBytes (fun a => (areasLegal_iff.1 h.areas a).1) (State.restoreFits_iff.1 hfits)
        codes := h.codes
        progLen := h.progLen
        pcInRange := h.pcInRange
        unloaded := h.unloaded }

theorem State.Inv.resetCommand {s : State} (h : s.Inv) : s.resetCommand.Inv :=
  { resetSatisfiesInv with codes := h.codes }

/-! ## The step -/

theorem State.Inv.runTurn {s t : State} {c : Option Nat} (h : s.Inv) (hl : s.loaded = true)
    (ht : s.runTurn c = .next t) : t.Inv := by
  rcases runTurn_cases s c with ⟨r, e⟩ | ⟨hlt, p, e⟩ <;> cases e.symm.trans ht
  · exact h.finish hl r
  · exact (h.incrementAr1 p).advance hl hlt c

theorem State.Inv.stepCommand {s t : State} {w : InstrWord} (h : s.Inv) (hl : s.loaded = true)
    (ht : s.stepCommand w = .next t) : t.Inv := by
  obtain ⟨r, e | ⟨p, e⟩⟩ := stepCommand_cases s w <;> cases e.symm.trans ht
  · exact h.finish hl r
  · exact (h.incrementAr1 p).finish hl r

theorem State.Inv.command {s t : State} {x : Command} (h : s.Inv) (ht : s.command x = .next t) : t.Inv := by
  cases x with
  | reset => cases ht; exact h.resetCommand
  | load l =>
    simp only [State.command, State.loadCommand] at ht
    split at ht <;> cases ht
    next hl => exact h.loadImage hl
  | step w =>
    simp only [State.command] at ht
    split at ht
    · next hl => exact h.stepCommand hl ht
    · cases ht; exact h
  | run c =>
    simp only [State.command] at ht
    split at ht <;> cases ht
    · next hl => exact h.startRun hl c
    · exact h
  | snapshot =>
    simp only [State.command] at ht
    split at ht <;> cases ht
    · exact h.withRegisters s.cpu s.pending _
    · exact h
  | restore img =>
    simp only [State.command] at ht
    split at ht <;> cases ht
    · exact h.restore img
    · exact h

/-- Settles O41: a turn of the RUN loop or a host command. A RUN is in progress on a loaded core alone, and a command
that needs a loaded core looks at LOADED first. -/
theorem stepKeepsInv : Obligations.StepKeepsInv := by
  intro s t h ht
  rcases step_cases s with ⟨c, hrun, e⟩ | ⟨_, _, e⟩ | ⟨x, rest, _, _, e⟩ <;> rw [e] at ht
  · exact h.runTurn (h.loaded_of_running hrun) ht
  · cases ht; exact h
  · exact (h.withRegisters s.cpu rest s.snapshotOut).command ht

end Sys2Proof.Machine
end

section
/-! PROOFS. The instruction step and the sequencer (R142 to R149): what a word does under RUN and under STEP, that it
does the same under both, and that every RUN terminates. -/

namespace Sys2Proof.Machine

/-! ## The instruction step -/

theorem stepWord_of_not_validWord {w : InstrWord} (h : ¬ ValidWord w) (s : State) :
    stepWord w s = .refused .structuralDefect :=
  stepWord_of_reject ((decodePartition w).trans (if_pos h)) s

/-- An instruction step that answers a next state has incremented `AR[1]`. -/
theorem stepWord_next_inversion {w : InstrWord} {s t : State} (h : stepWord w s = .next t) :
    ∃ p, t = s.incrementAr1 p := by
  rcases stepWord_cases w s with ⟨_, p, _, e⟩ | ⟨_, e, _⟩ | ⟨_, e⟩ <;> cases e.symm.trans h
  exact ⟨p, rfl⟩

/-- Settles O34: the decoder looks at the word alone, and an instruction at the registers. -/
theorem stepWordDependsOnRegistersOnly : Obligations.StepWordDependsOnRegistersOnly := by
  intro w s s' hcpu
  cases hdec : decode w with
  | ok i =>
    obtain ⟨c, h, h'⟩ := exec_same_cpu i hcpu
    rw [stepWord_of_ok hdec, stepWord_of_ok hdec, h, h']
    refine ⟨fun t ht => ?_, nofun, nofun⟩
    cases ht
    rfl
  | error r =>
    rw [stepWord_of_reject hdec, stepWord_of_reject hdec]
    refine ⟨fun t ht => ?_, fun _ => id, fun _ => id⟩
    cases r <;> cases ht

/-! ## A word under STEP and under RUN -/

theorem stepCommand_of_next {s t : State} {w : InstrWord} (h : stepWord w s = .next t) :
    s.stepCommand w = .next (t.finish (.ok 0#32)) := by
  rw [State.stepCommand, h]
  rfl

theorem stepCommand_of_defect {s : State} {w : InstrWord} (h : stepWord w s = .refused .structuralDefect) :
    s.stepCommand w = .next (s.takeDefect 0#32) := by
  rw [State.stepCommand, h]
  rfl

/-- Settles O27: the word's instruction completes, and the turn of the RUN advances. -/
theorem stepRunsDecodedInstruction : Obligations.StepRunsDecodedInstruction := by
  intro s c w i hrun hw hc hdec _
  obtain ⟨p, hp⟩ := exec_increments i s
  refine ⟨_, hp, ?_⟩
  rw [step_running hrun, runTurn_of_next hw hc ((stepWord_of_ok hdec s).trans hp)]
  rfl

/-- Settles O33: the word's instruction completes, and the command ends. It begins after it left the pending list,
where the instruction does the same to the registers. -/
theorem stepCommandRunsWord : Obligations.StepCommandRunsWord := by
  intro s w rest i hidle hpending hloaded hdec
  obtain ⟨c, h, h'⟩ := exec_same_cpu i (s := s) (s' := { s with pending := rest }) rfl
  refine ⟨_, h, ?_⟩
  rw [step_takes_step hidle hpending hloaded, stepCommand_of_next ((stepWord_of_ok hdec _).trans h')]
  rfl

/-- Settles O32: decode check 1 fails, and both a turn of the RUN and the STEP command take the defect. -/
theorem defectEntry : Obligations.DefectEntry := by
  refine ⟨fun s w => (stepWord_of_not_validWord · s), ?_, ?_⟩
  · intro s c w hrun hw hc hinvalid
    rw [step_running hrun, runTurn_of_defect hw hc (stepWord_of_not_validWord hinvalid s)]
    rfl
  · intro s w rest hidle hpending hloaded hinvalid
    rw [step_takes_step hidle hpending hloaded, stepCommand_of_defect (stepWord_of_not_validWord hinvalid _)]
    rfl

/-- The two commands end an instruction step alike, but for `pc`, RESULT and what is in progress. -/
theorem stepCommand_runTurn_agree {s r s' r' : State} {w : InstrWord} {c : Option Nat}
    (hw : r.prog[r.pc.toNat]? = some w) (hc : c ≠ some 0) (hcpu : s.cpu = r.cpu) (hmem : s.mem = r.mem)
    (hs : s.stepCommand w = .next s') (hr : r.runTurn c = .next r') : s'.cpu = r'.cpu ∧ s'.mem = r'.mem := by
  obtain ⟨next, fault, refused⟩ := stepWordDependsOnRegistersOnly w s r hcpu
  rcases stepWord_cases w s with ⟨_, p, _, h⟩ | ⟨f, h, _⟩ | ⟨_, h⟩
  · cases (stepCommand_of_next h).symm.trans hs
    cases (runTurn_of_next hw hc (next _ h)).symm.trans hr
    exact ⟨rfl, hmem⟩
  · cases (stepCommand_of_fault h).symm.trans hs
    cases (runTurn_of_fault hw hc (fault f h)).symm.trans hr
    exact ⟨hcpu, hmem⟩
  · cases (stepCommand_of_defect h).symm.trans hs
    cases (runTurn_of_defect hw hc (refused _ h)).symm.trans hr
    exact ⟨hcpu, hmem⟩

/-- Settles O35: each command makes one instruction step on the word, and its outcome depends on the registers. -/
theorem steppingIsInvisible : Obligations.SteppingIsInvisible := by
  intro s r s' r' w rest c hidle hpending hloaded hrun hw hc hcpu hmem hs hr
  rw [step_takes_step hidle hpending hloaded] at hs
  rw [step_running hrun] at hr
  exact stepCommand_runTurn_agree (s := { s with pending := rest }) hw hc hcpu hmem hs hr

/-! ## The RUN loop -/

theorem pc_add_one (pc : Word32) : pc + 1#32 = BitVec.ofNat 32 (pc.toNat + 1) := by
  apply BitVec.eq_of_toNat_eq
  rw [BitVec.toNat_add, BitVec.toNat_ofNat, BitVec.toNat_ofNat]

/-- Settles O28: the loop looks at the end of the program, at the cancel request and at the outcome of the
instruction step, in this order. -/
theorem runLoop : Obligations.RunLoop := by
  refine ⟨fun s c rest hidle hpending hloaded => step_takes_run hidle hpending hloaded, fun s c _ hrun => ?_⟩
  rw [step_running hrun]
  refine ⟨fun hend => ?_, fun hlt hc => ?_, fun w hw hc => ⟨fun f => runTurn_of_fault hw hc,
    runTurn_of_defect hw hc, fun t ht => ?_⟩⟩
  · rw [runTurn_ends c hend.ge, ← hend, BitVec.ofNat_toNat, BitVec.setWidth_eq]
    rfl
  · rw [hc, runTurn_cancelled hlt]
    rfl
  · obtain ⟨p, rfl⟩ := stepWord_next_inversion ht
    rw [runTurn_of_next hw hc ht, ← pc_add_one]
    rfl

/-- The state in which a RUN in progress in `s` may end: the offset in `AR[1]`, `pc` and RESULT differ, `pc` has not
gone back, and RESULT's index is where it stands. -/
def State.RunEndsIn (s t : State) : Prop :=
  t = { s with cpu := { s.cpu with ar1 := t.cpu.ar1 }, pc := t.pc, result := t.result, activity := .idle } ∧
  ptrArea t.cpu.ar1 = ptrArea s.cpu.ar1 ∧
  s.pc.toNat ≤ t.pc.toNat ∧ t.pc.toNat ≤ s.prog.length ∧
  (t.result = .ok t.pc ∨ (∃ f, t.result = .fault f t.pc) ∨ t.result = .defect t.pc)

/-- A turn that stops the RUN ends it in the state it began in. -/
theorem State.Inv.runEndsIn_finish {s : State} {c : Option Nat} {r : Report} (h : s.Inv)
    (hrun : s.activity = .running c) (hstep : step s = .next (s.finish r)) : s.RunEndsIn (s.finish r) := by
  refine ⟨rfl, rfl, Nat.le_refl _, h.pcInRange, ?_⟩
  obtain ⟨-, ways⟩ := runEndsInFourWays.1 s _ c h hrun hstep rfl
  rcases ways with ⟨hend, e⟩ | ⟨_, _, e⟩ | ⟨_, _, _, f, _, _, e⟩ | ⟨_, _, _, _, _, e⟩
  · rw [← hend, BitVec.ofNat_toNat, BitVec.setWidth_eq] at e
    exact .inl e
  · exact .inl e
  · exact .inr (.inl ⟨f, e⟩)
  · exact .inr (.inr e)

/-- R32: inside the program the next index does not wrap around. -/
theorem State.Inv.advance_pc_toNat {s : State} (h : s.Inv) (hlt : s.pc.toNat < s.prog.length) :
    (s.pc + 1#32).toNat = s.pc.toNat + 1 := by
  have hlen : s.prog.length ≤ 2 ^ 32 - 1 := h.progLen
  rw [pc_add_one, BitVec.toNat_ofNat, Nat.mod_eq_of_lt (by omega)]

/-- A turn that goes on leaves the end of the RUN to the turns that follow. -/
theorem State.Inv.runEndsIn_of_advance {s t : State} {p : Offset} {c : Option Nat} (h : s.Inv)
    (hlt : s.pc.toNat < s.prog.length) (ht : ((s.incrementAr1 p).advance c).RunEndsIn t) : s.RunEndsIn t := by
  obtain ⟨hsame, harea, hge, hle, hresult⟩ := ht
  have hpc : (s.pc + 1#32).toNat ≤ t.pc.toNat := hge
  rw [h.advance_pc_toNat hlt] at hpc
  exact ⟨hsame, harea.trans (ptrArea_ptrAdd _ p), by omega, hle, hresult⟩

/-- A run of one step more. -/
theorem run_succ_of_next {s t : State} (h : step s = .next t) (k : Nat) :
    Host.Core.run Sys2Proof.core (k + 1) s = Host.Core.run Sys2Proof.core k t := by
  rw [run_succ, h]

/-- A RUN with `n` instructions left ends within `n + 1` turns. -/
theorem State.Inv.runEndsIn_within {s : State} {c : Option Nat} (n : Nat) (h : s.Inv)
    (hrun : s.activity = .running c) (hn : s.prog.length - s.pc.toNat = n) :
    ∃ k t, k ≤ n + 1 ∧ Host.Core.run Sys2Proof.core k s = .next t ∧ s.RunEndsIn t := by
  induction n generalizing s c with
  | zero =>
    have hstep := (step_running hrun).trans (runTurn_ends c (by omega))
    exact ⟨1, _, Nat.le_refl _, run_succ_of_next hstep 0, h.runEndsIn_finish hrun hstep⟩
  | succ n ih =>
    rcases runTurn_cases s c with ⟨r, e⟩ | ⟨hlt, p, e⟩ <;> have hstep := (step_running hrun).trans e
    · exact ⟨1, _, by omega, run_succ_of_next hstep 0, h.runEndsIn_finish hrun hstep⟩
    · have hleft : s.prog.length - (s.pc + 1#32).toNat = n := by rw [h.advance_pc_toNat hlt]; omega
      obtain ⟨k, t, hk, hrunk, ht⟩ := ih (stepKeepsInv _ _ h hstep) rfl hleft
      exact ⟨k + 1, t, by omega, (run_succ_of_next hstep k).trans hrunk, h.runEndsIn_of_advance hlt ht⟩

/-- Settles O30: a turn that does not stop the RUN leaves one instruction fewer. -/
theorem runTerminates : Obligations.RunTerminates :=
  fun _ _ h hrun => h.runEndsIn_within _ hrun rfl

end Sys2Proof.Machine
end

section
/-! PROOFS. What a step of the core can answer and change (R31, R34, R36, R68, R150), and several cores (R41). -/

namespace Sys2Proof.Machine

/-! ## Every step answers -/

theorem State.loadCommand_cases (s : State) (l : LoadImage) :
    (∃ t, s.loadCommand l = .next t) ∨ (l.legal = false ∧ s.loadCommand l = .refused .loadDutyBroken) := by
  unfold State.loadCommand
  split
  · exact .inl ⟨_, rfl⟩
  · next h => exact .inr ⟨Bool.eq_false_iff.2 h, rfl⟩

/-- Every command but an unlawful LOAD answers a next state. -/
theorem command_answers (s : State) (x : Command) :
    (∃ t, s.command x = .next t) ∨
    ∃ l, x = .load l ∧ l.legal = false ∧ s.command x = .refused .loadDutyBroken := by
  cases x with
  | reset => exact .inl ⟨_, rfl⟩
  | load l => exact (State.loadCommand_cases s l).imp_right fun ⟨hl, e⟩ => ⟨l, rfl, hl, e⟩
  | step w =>
    refine .inl ?_
    simp only [State.command]
    split
    · obtain ⟨r, e | ⟨p, e⟩⟩ := stepCommand_cases s w <;> exact ⟨_, e⟩
    · exact ⟨_, rfl⟩
  | run c | snapshot | restore img =>
    refine .inl ?_
    simp only [State.command]
    split <;> exact ⟨_, rfl⟩

/-- Settles O36: a turn of the RUN stops or advances, and of the commands LOAD alone can be refused. -/
theorem stepAlwaysAnswers : Obligations.StepAlwaysAnswers := by
  intro s
  rcases step_cases s with ⟨c, _, e⟩ | ⟨_, _, e⟩ | ⟨x, rest, hidle, hpending, e⟩ <;> rw [e]
  · rcases runTurn_cases s c with ⟨r, e⟩ | ⟨_, p, e⟩ <;> exact .inl ⟨_, e⟩
  · exact .inl ⟨_, rfl⟩
  · rcases command_answers { s with pending := rest } x with h | ⟨l, rfl, hl, e⟩
    · exact .inl h
    · exact .inr ⟨hidle, l, rest, hpending, hl, e⟩

/-! ## What a step can change -/

/-- A step changes the memory, a flag, the program or the configuration only by LOAD, RESTORE or RESET. -/
theorem step_keeps_store {s t : State} (h : step s = .next t) :
    (t.mem = s.mem ∧ t.cpu.stw = s.cpu.stw) ∨
    (s.activity = .idle ∧ ∃ x rest, s.pending = x :: rest ∧
      ((∃ l, x = .load l) ∨ (∃ img, x = .restore img) ∨ x = .reset)) := by
  rcases step_change h with ⟨p, hcpu, e⟩ | ⟨hidle, rest, ⟨l, hp, _⟩ | ⟨img, hp, _⟩ | ⟨hp, _⟩⟩
  · refine .inl ⟨by rw [e], ?_⟩
    rcases hcpu with e | e <;> rw [e]
  · exact .inr ⟨hidle, _, rest, hp, .inl ⟨l, rfl⟩⟩
  · exact .inr ⟨hidle, _, rest, hp, .inr (.inl ⟨img, rfl⟩)⟩
  · exact .inr ⟨hidle, _, rest, hp, .inr (.inr rfl)⟩

/-- Settles O37: an instruction step faults in the decoder alone and changes `AR[1]` alone. -/
theorem noInstructionReachesMemory : Obligations.NoInstructionReachesMemory := by
  refine ⟨fun w s => ?_, fun s t h hne => (step_keeps_store h).resolve_left fun ⟨hmem, _⟩ => hne hmem⟩
  rcases stepWord_cases w s with ⟨_, p, _, e⟩ | ⟨f, e, hf⟩ | ⟨_, e⟩ <;> rw [e]
  · exact ⟨nofun, nofun, fun t ht => by cases ht; rfl⟩
  · refine ⟨?_, ?_, fun t ht => by cases ht⟩ <;> rcases hf with rfl | rfl | rfl <;> exact nofun
  · exact ⟨nofun, nofun, fun t ht => by cases ht⟩

/-- Settles O38: the flags stand in the status word. -/
theorem flagsChangeOnlyByHost : Obligations.FlagsChangeOnlyByHost := fun _ _ f h hne =>
  (step_keeps_store h).resolve_left fun ⟨_, hstw⟩ => hne (congrArg (fun x => x.get f) hstw)

theorem State.restore_program (s : State) (img : Snapshot) :
    (s.restore img).areaCode = s.areaCode ∧ (s.restore img).prog = s.prog ∧ (s.restore img).size = s.size ∧
    (s.restore img).loaded = s.loaded := by
  rcases restore_cases s img with e | ⟨_, e⟩ <;> rw [e] <;> exact ⟨rfl, rfl, rfl, rfl⟩

/-- Settles O39: of the commands that reach beyond the registers, RESTORE keeps the program and the configuration. -/
theorem programAndConfigurationConstant : Obligations.ProgramAndConfigurationConstant := by
  intro s t h
  rcases step_change h with ⟨p, _, e⟩ | ⟨hidle, rest, ⟨l, hp, rfl⟩ | ⟨img, hp, rfl⟩ | ⟨hp, rfl⟩⟩
  · rw [e]
    exact ⟨rfl, fun hne => by simp at hne⟩
  · exact ⟨rfl, fun _ => ⟨hidle, _, rest, hp, .inl ⟨l, rfl⟩⟩⟩
  · obtain ⟨hcode, hprog, hsize, hloaded⟩ := State.restore_program { s with pending := rest } img
    exact ⟨hcode, fun hne => by simp [hprog, hsize, hloaded] at hne⟩
  · exact ⟨rfl, fun _ => ⟨hidle, _, rest, hp, .inr rfl⟩⟩

/-! ## Several cores -/

section
variable {cores cs : List State} {i : Nat} {s : State}

theorem stepCore_of_next {t : State} (h : cores[i]? = some s) (hs : step s = .next t) :
    stepCore cores i = .next (cores.set i t) := by
  rw [stepCore, h]
  simp only [hs]

theorem stepCore_of_refused {r : Refusal} (h : cores[i]? = some s) (hs : step s = .refused r) :
    stepCore cores i = .refused r := by
  rw [stepCore, h]
  simp only [hs]

theorem stepCore_of_none (h : cores[i]? = none) : stepCore cores i = .next cores := by
  rw [stepCore, h]

/-- What a step of one core that answers has found and done. -/
theorem stepCore_inversion (h : stepCore cores i = .next cs) :
    (cores[i]? = none ∧ cs = cores) ∨ ∃ s t, cores[i]? = some s ∧ step s = .next t ∧ cs = cores.set i t := by
  cases hi : cores[i]? with
  | none =>
    cases (stepCore_of_none hi).symm.trans h
    exact .inl ⟨rfl, rfl⟩
  | some s =>
    rw [stepCore, hi] at h
    cases hs : step s with
    | next t =>
      simp only [hs] at h
      cases h
      exact .inr ⟨s, t, rfl, hs, rfl⟩
    | fault f => simp only [hs] at h; cases h
    | refused r => simp only [hs] at h; cases h

/-- R41: a step of one core leaves the others as they are. -/
theorem stepCore_other (h : stepCore cores i = .next cs) {j : Nat} (hj : j ≠ i) : cs[j]? = cores[j]? := by
  rcases stepCore_inversion h with ⟨_, rfl⟩ | ⟨_, _, _, _, rfl⟩
  · rfl
  · exact List.getElem?_set_ne hj.symm

theorem stepCore_length (h : stepCore cores i = .next cs) : cs.length = cores.length := by
  rcases stepCore_inversion h with ⟨_, rfl⟩ | ⟨_, _, _, _, rfl⟩
  · rfl
  · exact List.length_set

/-- Steps of two cores can be taken in either order. -/
theorem stepCore_comm {ds es : List State} {j : Nat} (hj : j ≠ i) (hcs : stepCore cores i = .next cs)
    (hds : stepCore cores j = .next ds) (hes : stepCore cs j = .next es) : stepCore ds i = .next es := by
  have hcsj := stepCore_other hcs hj
  have hdsi := stepCore_other hds hj.symm
  rcases stepCore_inversion hcs with ⟨hi, rfl⟩ | ⟨s, t, hi, hs, rfl⟩
  · cases hds.symm.trans hes
    exact stepCore_of_none (hdsi.trans hi)
  · rw [stepCore_of_next (hdsi.trans hi) hs]
    rcases stepCore_inversion hds with ⟨hnone, rfl⟩ | ⟨u, v, hu, hv, rfl⟩
    · exact (stepCore_of_none (hcsj.trans hnone)).symm.trans hes
    · rw [List.set_comm _ _ hj, ← stepCore_of_next (hcsj.trans hu) hv]
      exact hes

end

/-- Settles O40: the outcome is that of the core's own step, put into the core's place. -/
theorem coresIndependent : Obligations.CoresIndependent := by
  refine ⟨fun cores i s hi => ⟨fun t hs => ⟨stepCore_of_next hi hs, ?_⟩, fun r => stepCore_of_refused hi⟩,
    fun cores cs i h => ⟨stepCore_length h, fun j => stepCore_other h, fun j ds es hj => stepCore_comm hj h⟩⟩
  exact List.getElem?_set_self (List.getElem?_eq_some_iff.1 hi).1

end Sys2Proof.Machine
end

section
/-! PROOFS. The host commands RESET, LOAD, SNAPSHOT and RESTORE (R150 to R154, R190): what each sets and returns, and
the round trip of SNAPSHOT and RESTORE. -/

namespace Sys2Proof.Machine

/-! ## RESET and the gate of LOADED (R190) -/

theorem reset_size (a : Area) : State.reset.size.get a = 0 := by
  cases a <;> rfl

/-- Settles O43: both leave the fields of `State.reset`, and the command keeps the constant of the build. -/
theorem resetLeaves : Obligations.ResetLeaves :=
  ⟨⟨rfl, rfl, rfl, rfl, reset_size⟩, fun _ _ hidle hpending =>
    ⟨_, step_idle hidle hpending, rfl, rfl, rfl, rfl, reset_size, rfl, rfl⟩⟩

/-- Settles O44: the four commands look at LOADED first. -/
theorem commandsBeforeLoadHaveNoEffect : Obligations.CommandsBeforeLoadHaveNoEffect := by
  intro s x rest hidle hunloaded hpending hx
  have hgate : ¬ s.loaded = true := Bool.eq_false_iff.1 hunloaded
  rw [step_idle hidle hpending]
  rcases hx with ⟨w, rfl⟩ | ⟨c, rfl⟩ | rfl | ⟨img, rfl⟩ <;> exact if_neg hgate

/-! ## LOAD (R152, R154) -/

theorem step_takes_load {s : State} {l : LoadImage} {rest : List Command} (hidle : s.activity = .idle)
    (hpending : s.pending = .load l :: rest) (hl : l.legal = true) :
    step s = .next (State.loadImage { s with pending := rest } l) := by
  rw [step_idle hidle hpending]; exact if_pos hl

theorem step_refuses_load {s : State} {l : LoadImage} {rest : List Command} (hidle : s.activity = .idle)
    (hpending : s.pending = .load l :: rest) (hl : ¬ l.legal = true) : step s = .refused .loadDutyBroken := by
  rw [step_idle hidle hpending]; exact if_neg hl

/-- Settles O46: the check made at LOAD is the host's duties. -/
theorem unlawfulLoadRefused : Obligations.UnlawfulLoadRefused := by
  intro s l rest hidle hpending hbroken
  refine step_refuses_load hidle hpending fun hl => ?_
  obtain ⟨hareas, hprog⟩ := LoadImage.legal_iff.1 hl
  rcases hbroken with ⟨a, hlen | hsize⟩ | hlong
  · exact hlen (hareas a).1
  · exact Nat.not_lt.2 (hareas a).2 hsize
  · exact Nat.not_lt.2 hprog hlong

/-- The areas that LOAD and RESTORE make read as the host's byte lists. -/
theorem readByte_ofBytes {bytes : PerArea (List Byte)} {a : Area} {o : Nat} {b : Byte}
    (h : (bytes.get a)[o]? = some b) :
    readByte ((PerArea.ofFn fun a => cellsOfBytes 0 (bytes.get a)).get a) o = b := by
  obtain ⟨ho, hb⟩ := List.getElem?_eq_some_iff.1 h
  rw [PerArea.get_ofFn, ← hb, ← readByte_cellsOfBytes 0 o _ ho, Nat.zero_add]

/-- Settles O45: the duties are the check made at LOAD, and each field is the host's. -/
theorem loadSetsState : Obligations.LoadSetsState := by
  intro s l rest hidle hpending hareas hprog
  exact ⟨_, step_takes_load hidle hpending (LoadImage.legal_iff.2 ⟨hareas, hprog⟩),
    rfl, rfl, rfl, rfl, rfl, rfl, StatusWord.unpack_get l.cpu.stw, rfl, fun _ _ _ => readByte_ofBytes,
    rfl, rfl, rfl, rfl, rfl, hidle, rfl, rfl⟩

/-! ## SNAPSHOT and RESTORE (R151) -/

theorem length_bytesOfCells (size : Nat) (m : List Host.Cell) : (bytesOfCells size m).length = size := by
  rw [bytesOfCells, List.length_map, List.length_range]

theorem getElem?_bytesOfCells {size o : Nat} (m : List Host.Cell) (h : o < size) :
    (bytesOfCells size m)[o]? = some (readByte m o) := by
  rw [bytesOfCells, List.getElem?_map, List.getElem?_range h, Option.map_some]

theorem State.snapshot_bytes (s : State) (a : Area) :
    s.snapshot.bytes.get a = bytesOfCells (s.size.get a) (s.mem.get a) :=
  PerArea.get_ofFn _ a

/-- Settles O47: what is handed out is `State.snapshot`. -/
theorem snapshotReturnsState : Obligations.SnapshotReturnsState := by
  intro s rest hidle hpending hloaded
  refine ⟨s.snapshot, step_takes_snapshot hidle hpending hloaded, rfl, rfl, rfl, rfl, rfl, rfl, rfl, fun a => ?_⟩
  rw [State.snapshot_bytes]
  exact ⟨length_bytesOfCells _ _, fun o => getElem?_bytesOfCells _⟩

/-- A RESTORE that fits writes the registers and the bytes. -/
theorem restore_of_fits {s : State} {img : Snapshot} (h : ∀ a, (img.bytes.get a).length = s.size.get a) :
    s.restore img =
      { s with cpu := img.cpu.toCpu, mem := PerArea.ofFn fun a => cellsOfBytes 0 (img.bytes.get a) } :=
  if_pos (State.restoreFits_iff.2 h)

theorem restore_of_not_fits {s : State} {img : Snapshot} (h : ¬ ∀ a, (img.bytes.get a).length = s.size.get a) :
    s.restore img = s :=
  if_neg fun hfits => h (State.restoreFits_iff.1 hfits)

/-- Settles O48: the lengths decide between the write of the registers and the bytes and no effect. -/
theorem restoreWritesState : Obligations.RestoreWritesState := by
  intro s img rest hidle hpending hloaded
  rw [step_takes_restore hidle hpending hloaded]
  constructor
  · intro hfits
    refine ⟨State.restore { s with pending := rest } img, ?_⟩
    rw [restore_of_fits (s := { s with pending := rest }) hfits]
    exact ⟨rfl, rfl, rfl, rfl, rfl, rfl, rfl, StatusWord.unpack_get img.cpu.stw, fun _ _ _ => readByte_ofBytes⟩
  · rintro ⟨a, ha⟩
    rw [restore_of_not_fits (s := { s with pending := rest }) fun hfits => ha (hfits a)]

/-- The register image of the port loses nothing of the registers. -/
theorem CpuState.toImage_toCpu (c : CpuState) : c.toImage.toCpu = c := by
  rw [CpuState.toImage, CpuImage.toCpu, StatusWord.unpack_pack]

/-- Written to the registers and read back, an image loses bits [15:9] of the status word (R29). -/
theorem CpuImage.toCpu_toImage (i : CpuImage) : i.toCpu.toImage = { i with stw := i.stw &&& 0x01FF#16 } := by
  rw [CpuImage.toCpu, CpuState.toImage, StatusWord.pack_unpack]

theorem restore_snapshot {s : State} (h : s.Inv) : s.restore s.snapshot = s := by
  have hlen : ∀ a, (s.snapshot.bytes.get a).length = s.size.get a := fun a => by
    rw [State.snapshot_bytes, length_bytesOfCells]
  have hcpu : s.snapshot.cpu.toCpu = s.cpu := s.cpu.toImage_toCpu
  have hmem : PerArea.ofFn (fun a => cellsOfBytes 0 (s.snapshot.bytes.get a)) = s.mem :=
    PerArea.ext_get fun a => by
      rw [PerArea.get_ofFn, State.snapshot_bytes,
        cellsOfBytes_bytesOfCells (Memory.wf_iff.1 h.memWf a) (areasLegal_iff.1 h.areas a).2]
  rw [restore_of_fits hlen, hcpu, hmem]

theorem snapshot_restore {s : State} {img : Snapshot} (h : ∀ a, (img.bytes.get a).length = s.size.get a) :
    (s.restore img).snapshot = { img with cpu := { img.cpu with stw := img.cpu.stw &&& 0x01FF#16 } } := by
  have hbytes : (s.restore img).snapshot.bytes = img.bytes :=
    PerArea.ext_get fun a => by
      rw [State.snapshot_bytes, restore_of_fits h, PerArea.get_ofFn, ← h a, bytesOfCells_cellsOfBytes]
  have hcpu : (s.restore img).snapshot.cpu = { img.cpu with stw := img.cpu.stw &&& 0x01FF#16 } := by
    rw [← CpuImage.toCpu_toImage, restore_of_fits h]
    rfl
  rw [← hbytes, ← hcpu]

/-- Settles O49: the registers go through their image and each area through its byte list, in both directions. -/
theorem snapshotRestoreRoundTrip : Obligations.SnapshotRestoreRoundTrip :=
  ⟨fun _ => restore_snapshot, fun _ _ => snapshot_restore⟩

end Sys2Proof.Machine
end
